-- ==== Sys2Proof/Word.lean ====
section
/-! DEFINITION. The word types of the block (spec/00_scope.md R5, R6; spec/30_encoding.md R45). -/

namespace Sys2Proof

/-- A byte: 8 bits, unsigned (R6). The operand of FEED (format BYTE, R45) and one cell of BUF or OUT. -/
abbrev Byte := BitVec 8

/-- An index or capacity operand: `IDXW` = 16 bits, unsigned (R5, R8). -/
abbrev Operand := BitVec 16

/-- The width `PTRW` = 10 of `write_position` and `frame_length`, enough for every value `0 .. C` (R5, R11). -/
abbrev Ptr := BitVec 10

/-- XCSUM's result: 16 bits, unsigned (R50, R96). -/
abbrev Checksum := BitVec 16

/-- A word of format CMD: 56 bits (R45). -/
abbrev CmdWord := BitVec 56

end Sys2Proof
end

