-- ==== Sys2Proof/Config.lean ====
section
/-! DEFINITION. The parameters of spec/00_scope.md R5 at the values this hardware takes, and the one free value (R23). -/

namespace Sys2Proof

/-- Capacity of the frame buffer in bytes (R5; decision D13, log entry 1). -/
def Config.C : Nat := 512

/-- The start marker (R5). -/
def Config.START : Byte := 0x37

/-- The end marker, AMS's "frame marker byte" (R5). -/
def Config.END : Byte := 0xC0

/-- The escape introducer (R5). -/
def Config.ESC : Byte := 0xDB

/-- The escape code that stands for the end marker (R5, R49). -/
def Config.ESC_END : Byte := 0xDC

/-- The escape code that stands for the introducer (R5, R49). -/
def Config.ESC_ESC : Byte := 0xDD

/-- The minimum-frame-length threshold: a frame completes only above it (R5, R75). -/
def Config.MINLEN : Nat := 80

/-- The "frame-format validity byte", read by no rule (R5; decision D7). -/
def Config.FORMAT_ID : Byte := 0xA0

/-- Width of every index and capacity operand (R5). -/
def Config.IDXW : Nat := 16

/-- Width of `write_position` and `frame_length` (R5). -/
def Config.PTRW : Nat := 10

/-- The five byte values with a class of their own; every other value is class DATA (R46). -/
def Config.namedBytes : List Byte :=
  [Config.START, Config.END, Config.ESC, Config.ESC_END, Config.ESC_ESC]

/-- FREE VALUE (R23, log entry 2): the byte at index `i` of BUF after the `draw`-th reset, as long as no FEED
has stored there. It has no body: nothing constrains it, and it stays the same until stored over. -/
opaque Config.resetByte (draw i : Nat) : Byte

end Sys2Proof
end

