-- ==== Sys2Proof/Syntax.lean ====
section
/-! DEFINITION. The instructions: one constructor per row of spec/opcode_table.json, and the words that spell them. -/

namespace Sys2Proof

/-- The operations of the block (spec/30_encoding.md R51, R53) and the six byte classes of its wire format (R46),
one constructor per row of the opcode table. A row of format BYTE is a received octet: FEED with that operand. -/
inductive Instr where
  /-- CLEAR, `Clear()` (R66). -/
  | clear
  /-- FEED, `Feed(b)` (R67). -/
  | feed (b : Byte)
  /-- XTEL, `ExtractTelegram(out_buffer, out_capacity)` (R91). -/
  | xtel (outCapacity : Operand)
  /-- XADDR, `ExtractAddressField(start_offset, out_buffer, out_start, out_capacity)` (R93). -/
  | xaddr (startOffset outStart outCapacity : Operand)
  /-- XCSUM, `ExtractChecksum(position)` (R96). -/
  | xcsum (position : Operand)
  /-- RESERVED_OP, a CMD word whose `op` is in `0x05 .. 0xFF` (R53). -/
  | reservedOp (op : Byte)
  /-- START, the octet `0x37` (R46, R69). -/
  | start
  /-- END, the octet `0xC0` (R46, R75). -/
  | endMark
  /-- ESC, the octet `0xDB` (R46, R70). -/
  | esc
  /-- ESC_END, the octet `0xDC` (R46, R72). -/
  | escEnd
  /-- ESC_ESC, the octet `0xDD` (R46, R73). -/
  | escEsc
  /-- DATA, every other octet (R46, R74). -/
  | data (b : Byte)
deriving DecidableEq, Repr

/-- A requested operation as it is spelled: a word of one of the two formats of R45. -/
inductive RequestWord where
  /-- Format BYTE: the raw octet as received from the line. -/
  | byte (b : Byte)
  /-- Format CMD: one 56-bit command word. -/
  | cmd (w : CmdWord)
deriving DecidableEq, Repr

end Sys2Proof
end

