-- ==== Sys2Proof/WellFormed.lean ====
section
/-! DEFINITION. Which terms of Instr are instructions of the opcode table (spec/30_encoding.md R46, R53). -/

namespace Sys2Proof

/-- A term is well formed when its operands lie in its row: `op` of RESERVED_OP in `0x05 .. 0xFF` (R53), the
octet of DATA none of the five named values (R46). Every other operand may take every value of its width (R8). -/
def Instr.wf : Instr → Bool
  | .clear => true
  | .feed _ => true
  | .xtel _ => true
  | .xaddr _ _ _ => true
  | .xcsum _ => true
  | .reservedOp op => decide (5 ≤ op.toNat)
  | .start => true
  | .endMark => true
  | .esc => true
  | .escEnd => true
  | .escEsc => true
  | .data b => !Config.namedBytes.contains b

end Sys2Proof
end

