-- ==== Sys2Proof/Decode.lean ====
section
/-! DEFINITION. Decoding and encoding of the two formats (spec/30_encoding.md R45, R46, R51 to R53). -/

namespace Sys2Proof

/-- Why a row of bits is no request at all. -/
inductive DecodeError where
  /-- No format has words of this many bits: "no word is longer or shorter than its format" (R45). -/
  | noSuchFormat (nbits : Nat)
deriving DecidableEq, Repr

/-! ### The fields of a CMD word (R45) -/

/-- Bits 55:48, the operation code. -/
def opField (w : CmdWord) : Byte := w.extractLsb' 48 8

/-- Bits 47:32, the first operand. -/
def aField (w : CmdWord) : Operand := w.extractLsb' 32 16

/-- Bits 31:16, the second operand. -/
def b16Field (w : CmdWord) : Operand := w.extractLsb' 16 16

/-- Bits 15:0, the third operand. -/
def cField (w : CmdWord) : Operand := w.extractLsb' 0 16

/-- Bits 7:0, FEED's byte; `c[15:8]` is ignored. -/
def byteField (w : CmdWord) : Byte := w.extractLsb' 0 8

/-! ### Operation codes (R51) -/

/-- `op` of CLEAR. -/
def opCLEAR : Byte := 0x00

/-- `op` of FEED. -/
def opFEED : Byte := 0x01

/-- `op` of XTEL. -/
def opXTEL : Byte := 0x02

/-- `op` of XADDR. -/
def opXADDR : Byte := 0x03

/-- `op` of XCSUM. -/
def opXCSUM : Byte := 0x04

/-! ### Decoding -/

/-- The operation a CMD word requests: selected by `op` only (R51, R52); a code above `0x04` is reserved (R53). -/
def decodeCmd (w : CmdWord) : Instr :=
  if opField w = opCLEAR then .clear
  else if opField w = opFEED then .feed (byteField w)
  else if opField w = opXTEL then .xtel (cField w)
  else if opField w = opXADDR then .xaddr (aField w) (b16Field w) (cField w)
  else if opField w = opXCSUM then .xcsum (aField w)
  else .reservedOp (opField w)

/-- The class of an octet, by value alone (R46). -/
def decodeByte (b : Byte) : Instr :=
  if b = Config.START then .start
  else if b = Config.END then .endMark
  else if b = Config.ESC then .esc
  else if b = Config.ESC_END then .escEnd
  else if b = Config.ESC_ESC then .escEsc
  else .data b

/-- Every word of either format is one instruction; none is refused (R46, R53, R54). -/
def decode : RequestWord → Instr
  | .byte b => decodeByte b
  | .cmd w => decodeCmd w

/-- A row of `nbits` bits as a word of the format that has this length (R45). -/
def tableWord (nbits w : Nat) : Except DecodeError RequestWord :=
  if nbits = 8 then .ok (.byte (BitVec.ofNat 8 w))
  else if nbits = 56 then .ok (.cmd (BitVec.ofNat 56 w))
  else .error (.noSuchFormat nbits)

/-- The instruction decoded from `nbits` bits numbered as spec/opcode_table.json numbers them. -/
def decodeTableWord (nbits w : Nat) : Option Instr :=
  match tableWord nbits w with
  | .ok q => some (decode q)
  | .error _ => none

/-! ### Encoding -/

/-- A CMD word from its four fields (R45). -/
def packCmd (op : Byte) (a b16 c : Operand) : CmdWord :=
  ((op ++ a ++ b16 ++ c : BitVec (8 + 16 + 16 + 16)))

/-- The words of an instruction (R46, R51); the fields the table calls ignored are zero. -/
def encode : Instr → RequestWord
  | .clear => .cmd (packCmd opCLEAR 0 0 0)
  | .feed b => .cmd (packCmd opFEED 0 0 (b.setWidth 16))
  | .xtel cap => .cmd (packCmd opXTEL 0 0 cap)
  | .xaddr startOffset outStart cap => .cmd (packCmd opXADDR startOffset outStart cap)
  | .xcsum position => .cmd (packCmd opXCSUM position 0 0)
  | .reservedOp op => .cmd (packCmd op 0 0 0)
  | .start => .byte Config.START
  | .endMark => .byte Config.END
  | .esc => .byte Config.ESC
  | .escEnd => .byte Config.ESC_END
  | .escEsc => .byte Config.ESC_ESC
  | .data b => .byte b

end Sys2Proof
end

