-- ==== Sys2Proof/Machine/State.lean ====
section
/-! DEFINITION. The state of the block (spec/10_state.md R10 to R25), what its operations return, and its reset. -/

namespace Sys2Proof.Machine

/-- A byte space as the list of the cells written to it, addresses strictly rising (`Memory.wf`). An address that
is not listed has no value of its own here: for BUF its byte is then the free value of R23 (`bufByte`), for OUT it
is whatever the consumer holds there. So no entry can equal what an unlisted address reads as. -/
abbrev Memory := List Host.Cell

/-- The spec's three faults with the information each carries (spec/60_exceptions.md R126). An operation that
raises one returns no value and changes nothing, and the next operation proceeds normally (R27, R134). -/
inductive OpFault where
  /-- Code 1, raised by a CMD word with a reserved `op`. -/
  | illegalOperation (op : Byte)
  /-- Code 2, raised by XTEL and XADDR: bytes needed, and the size of OUT. -/
  | outBufferTooSmall (needed : Nat) (capacity : Operand)
  /-- Code 3, raised by XCSUM. -/
  | positionOutOfRange (position : Operand)
deriving DecidableEq, Repr

/-- What an operation gives back to its owner (spec/70_reset_and_hazards.md R147). -/
inductive Result where
  /-- No operation has been performed since reset. -/
  | none
  /-- CLEAR: no result value (R66). -/
  | cleared
  /-- FEED: the two Booleans of R16. -/
  | fed (complete overflow : Bool)
  /-- XTEL, XADDR: the count (R91, R93). -/
  | count (n : Nat)
  /-- XCSUM: the 16-bit value (R96). -/
  | checksum (v : Checksum)
  /-- The operation ended with `raise` (R7, R126). -/
  | fault (f : OpFault)
deriving DecidableEq, Repr

/-- What the outside world can ask of the block: an operation, or the reset event (R145). -/
inductive Request where
  /-- An operation, spelled as a word of one of the two formats. -/
  | word (w : RequestWord)
  /-- The reset event, which may occur between any two operations (R145). -/
  | reset
deriving DecidableEq, Repr

/-- The three states of R105. They are not stored; `mode` computes them. -/
inductive Mode where
  | idle
  | accumulating
  | frameReady
deriving DecidableEq, Repr

/-- The whole state of the block (R11 to R13, R18, R24), the caller's output buffer, and three fields of the
model's own: which draw of BUF's reset contents is in force, what the last operation returned, and the owner's
requests not yet performed. -/
structure State where
  /-- `write_position` (R11). -/
  writePosition : Ptr
  /-- `frame_length` (R12). -/
  frameLength : Ptr
  /-- `escape_pending` (R13). -/
  escapePending : Bool
  /-- BUF (R18, R19): the cells FEED has stored to since reset. -/
  buf : Memory
  /-- OUT, the caller's output buffer (R18, R90): the cells the block has delivered. -/
  out : Memory
  /-- The model's own: the draw of BUF's reset contents (R23). -/
  resetDraw : Nat
  /-- The model's own: the result of the last operation (R147, R159). -/
  result : Result
  /-- The model's own: the requests not yet performed, oldest first (R14, R36). -/
  requests : List Request
deriving DecidableEq, Repr

/-- The reasons the MODEL stops. The spec's own faults are no stops: see `OpFault`. -/
inductive Fault where
  /-- Raised by FEED, XTEL and XADDR where a BUF access would use the index `i`, which does not exist (R30). Only
  a state with `write_position > C` gets there, and no run reaches one (R108). Safe: no effect is claimed. -/
  | bufIndexOutOfRange (i : Nat)
deriving DecidableEq, Repr

/-- The reasons an instruction has no meaning. -/
inductive Refusal where
  /-- Raised by no arm of this model: every row of the opcode table has its meaning. Safe. -/
  | notModelled (mnemonic : String)
deriving DecidableEq, Repr

/-- The machine right after reset (R22, R23, R24): the registers at 0/false, nothing stored in BUF since reset.
OUT, `resetDraw`, `result` and `requests` are at values the model names (log entries 2 to 5). -/
def State.reset : State where
  writePosition := 0
  frameLength := 0
  escapePending := false
  buf := []
  out := []
  resetDraw := 0
  result := .none
  requests := []

end Sys2Proof.Machine
end

