-- ==== Sys2Proof/Machine/Flags.lean ====
section
/-! DEFINITION. The derived flags and status outputs (spec/10_state.md R15 to R17, spec/42_state_machine.md R105). -/

namespace Sys2Proof.Machine

/-- `Ready`, "complete and readable", also the status output `ready` (R15, R17). -/
def ready (s : State) : Bool :=
  decide (0 < s.frameLength.toNat) && s.writePosition == s.frameLength

/-- The status output `idle` (R17), and the first half of FEED's idle test (R69). -/
def idle (s : State) : Bool := s.writePosition == 0

/-- The buffer is full: a store would go past it (R76). -/
def atCapacity (s : State) : Bool := s.writePosition.toNat == Config.C

/-- The completion test (R75, R122): the byte just stored is the end marker and `write_position`, already
incremented, exceeds the threshold. -/
def completes (b : Byte) (s : State) : Bool :=
  b == Config.END && decide (Config.MINLEN < s.writePosition.toNat)

/-- The state of the state machine (R105). -/
def mode (s : State) : Mode :=
  if idle s then .idle else if ready s then .frameReady else .accumulating

/-- The numeric code of a fault (R126). -/
def OpFault.code : OpFault → Nat
  | .illegalOperation _ => 1
  | .outBufferTooSmall _ _ => 2
  | .positionOutOfRange _ => 3

end Sys2Proof.Machine
end

