-- ==== Sys2Proof/Machine/Ops.lean ====
section
/-! DEFINITION. The operations over BUF, OUT and the registers that the instructions share. -/

namespace Sys2Proof.Machine

/-! ### Byte spaces -/

/-- The byte listed at an address, if there is one. -/
def Memory.read : Memory → Nat → Option Byte
  | [], _ => none
  | (k, b) :: rest, a => if a = k then some b else Memory.read rest a

/-- `MemWrite(space, a, 1, v)`: replaces one byte and no other (R30), keeping the addresses strictly rising. -/
def Memory.write : Memory → Nat → Byte → Memory
  | [], a, v => [(a, v)]
  | (k, b) :: rest, a, v =>
    if a < k then (a, v) :: (k, b) :: rest
    else if a = k then (a, v) :: rest
    else (k, b) :: Memory.write rest a v

/-- Bytes written from `a` upward, in increasing index order (R41). -/
def Memory.writeList : Memory → Nat → List Byte → Memory
  | m, _, [] => m
  | m, a, v :: vs => Memory.writeList (Memory.write m a v) (a + 1) vs

/-- The canonical form of a byte space: addresses strictly rising. -/
def Memory.wf : Memory → Bool
  | [] => true
  | (k, _) :: rest => rest.all (fun c => decide (k < c.1)) && Memory.wf rest

/-- Every listed address is below `n`. -/
def Memory.below (n : Nat) (m : Memory) : Bool := m.all (fun c => decide (c.1 < n))

/-- `buf[i]` (R7, R19, R23): the byte FEED stored there last, or, if none since reset, the free reset byte. -/
def bufByte (s : State) (i : Nat) : Byte :=
  (Memory.read s.buf i).getD (Config.resetByte s.resetDraw i)

/-- `MemRead(BUF, i, 1)`: an index is legal exactly when `i < C` (R30); another does not exist. -/
def readBuf (s : State) (i : Nat) : Except Fault Byte :=
  if i < Config.C then .ok (bufByte s i) else .error (.bufIndexOutOfRange i)

/-! ### Registers -/

/-- `Clear()` (R66): the three registers to 0/false; BUF and OUT are not touched (R20). -/
def clearBlock (s : State) : State :=
  { s with writePosition := 0, frameLength := 0, escapePending := false }

/-- The reset event (R145): the registers as `Clear()` leaves them, and a new, unspecified BUF (R23). -/
def resetBlock (s : State) : State :=
  { s with
    writePosition := 0, frameLength := 0, escapePending := false
    buf := [], resetDraw := s.resetDraw + 1, result := .none }

/-- Sets or clears `escape_pending` (R13). -/
def setEscape (e : Bool) (s : State) : State := { s with escapePending := e }

/-- The append mode (R31): the byte at `write_position`, which then advances by one. -/
def pushByte (v : Byte) (s : State) : State :=
  { s with
    buf := Memory.write s.buf s.writePosition.toNat v
    writePosition := s.writePosition + 1 }

/-- `frame_length <- write_position` (R75). -/
def markComplete (s : State) : State := { s with frameLength := s.writePosition }

/-- Bytes delivered to OUT from index `dst` upward (R41). -/
def deliver (dst : Nat) (bytes : List Byte) (s : State) : State :=
  { s with out := Memory.writeList s.out dst bytes }

/-- The value an operation returns (R147). -/
def setResult (r : Result) (s : State) : State := { s with result := r }

/-! ### How an operation ends -/

/-- `return`: the operation ends with a result. -/
def answer (r : Result) (s : State) : Host.Outcome State Fault Refusal := .next (setResult r s)

/-- `raise` (R7, R27, R126, R133): the operation ends with no value and no state change at all, the fault is
reported as its result, and the machine goes on with the next operation. Every fault is taken here. -/
def raiseFault (f : OpFault) (s : State) : Host.Outcome State Fault Refusal :=
  answer (.fault f) s

/-! ### FEED's shared steps -/

/-- Step 0 of FEED, the release (R68): a complete, unread frame is cleared first. -/
def release (s : State) : State := if ready s then clearBlock s else s

/-- The overflow reset (R76): a full buffer is cleared before a store. -/
def makeRoom (s : State) : State := if atCapacity s then clearBlock s else s

/-- The index the next store goes to (R76): `write_position`, or 0 after an overflow reset. -/
def appendIndex (s : State) : Nat := (makeRoom s).writePosition.toNat

/-- A guarded store (R72 to R74, R76): the new state, and whether an overflow reset came first. -/
def appendByte (v : Byte) (s : State) : Except Fault (State × Bool) :=
  if appendIndex s < Config.C then .ok (pushByte v (makeRoom s), atCapacity s)
  else .error (.bufIndexOutOfRange (appendIndex s))

/-! ### The owner's requests -/

/-- The oldest request and the state in which it is performed (R14, R36). -/
def takeRequest (s : State) : Option (Request × State) :=
  match s.requests with
  | [] => none
  | r :: rest => some (r, { s with requests := rest })

/-- A request put before all others. -/
def pushRequest (r : Request) (s : State) : State := { s with requests := r :: s.requests }

end Sys2Proof.Machine
end

