-- ==== Sys2Proof/Machine/Operands.lean ====
section
/-! DEFINITION. The addressing modes of the extractors (spec/20_memory.md R31) and the assembly of operands
(spec/30_encoding.md R49, R50). The append mode stands in Ops (`appendByte`). -/

namespace Sys2Proof.Machine

/-- The byte an escape code stands for (R49): `ESC_END` for `END`, `ESC_ESC` for `ESC`. -/
def escapedLiteral (b : Byte) : Byte := if b == Config.ESC_END then Config.END else Config.ESC

/-- The byte is one of the two escape codes (R72, R73). -/
def isEscapeCode (b : Byte) : Bool := b == Config.ESC_END || b == Config.ESC_ESC

/-- `MemRead(BUF, i, n)`: `n` bytes from index `i` upward (R7), the prefix copy of XTEL and the copy of XADDR. -/
def readRange (s : State) : (i n : Nat) → Except Fault (List Byte)
  | _, 0 => .ok []
  | i, n + 1 =>
    match readBuf s i with
    | .error f => .error f
    | .ok b =>
      match readRange s (i + 1) n with
      | .error f => .error f
      | .ok bs => .ok (b :: bs)

/-- The last byte of an address field: bit 0 is set (R93, R123). -/
def isTerminator (b : Byte) : Bool := b.getLsbD 0

/-- The forward scan of XADDR (R93) over at most `n` bytes from index `i`: how many bytes it takes, and whether
the last of them is a terminator. -/
def scanField (s : State) : (i n : Nat) → Except Fault (Nat × Bool)
  | _, 0 => .ok (0, false)
  | i, n + 1 =>
    match readBuf s i with
    | .error f => .error f
    | .ok b =>
      if isTerminator b then .ok (1, true)
      else
        match scanField s (i + 1) n with
        | .error f => .error f
        | .ok (k, found) => .ok (k + 1, found)

/-- XCSUM's value from the byte at the lower index and the byte at the higher (R33, R50): the higher is the more
significant. -/
def composeChecksum (lo hi : Byte) : Checksum := (hi ++ lo : BitVec (8 + 8))

/-- Copies `n` bytes of BUF from `src` to OUT from `dst`, and returns `count` (R91, R93). -/
def copyOut (s : State) (src n dst count : Nat) : Host.Outcome State Fault Refusal :=
  match readRange s src n with
  | .error f => .fault f
  | .ok bytes => answer (.count count) (deliver dst bytes s)

end Sys2Proof.Machine
end

