-- ==== Sys2Proof/Machine/Extract.lean ====
section
/-! DEFINITION. The extraction operations XTEL, XADDR, XCSUM (spec/41_extract.md R90 to R98). -/

namespace Sys2Proof.Machine

/-- XTEL (R91): 0 outside FrameReady whatever the capacity; else the capacity check, then the copy of everything
but the end marker. -/
def execXtel (cap : Operand) (s : State) : Host.Outcome State Fault Refusal :=
  if ready s then
    let n := s.frameLength.toNat - 1
    if cap.toNat < n then raiseFault (.outBufferTooSmall n cap) s
    else copyOut s 0 n 0 n
  else answer (.count 0) s

/-- XADDR (R93): the scan first; the capacity check only if something is to be written; then every scanned byte
is copied, and the count is 0 when no terminator was found. -/
def execXaddr (startOffset outStart cap : Operand) (s : State) : Host.Outcome State Fault Refusal :=
  match scanField s startOffset.toNat (s.writePosition.toNat - startOffset.toNat) with
  | .error f => .fault f
  | .ok (n, found) =>
    if 0 < n ∧ cap.toNat < outStart.toNat + n then
      raiseFault (.outBufferTooSmall (outStart.toNat + n) cap) s
    else copyOut s startOffset.toNat n outStart.toNat (if found then n else 0)

/-- XCSUM (R96): the range check comes before the reads, which need not lie in the populated range. -/
def execXcsum (position : Operand) (s : State) : Host.Outcome State Fault Refusal :=
  if Config.C ≤ position.toNat + 2 then raiseFault (.positionOutOfRange position) s
  else
    answer (.checksum (composeChecksum (bufByte s (position.toNat + 1)) (bufByte s (position.toNat + 2)))) s

end Sys2Proof.Machine
end

