-- ==== Sys2Proof/Machine/Reserved.lean ====
section
/-! DEFINITION. The reserved operation codes (spec/30_encoding.md R53, spec/60_exceptions.md R126). -/

namespace Sys2Proof.Machine

/-- RESERVED_OP (R53): raises IllegalOperation(op) and changes no state. -/
def execReservedOp (op : Byte) (s : State) : Host.Outcome State Fault Refusal :=
  raiseFault (.illegalOperation op) s

end Sys2Proof.Machine
end

