-- ==== Sys2Proof/Machine/Stream.lean ====
section
/-! DEFINITION. The stream operations CLEAR and FEED (spec/40_clear_feed.md R65 to R80), and the received octets,
which are FEED with that operand (spec/30_encoding.md R45, R46). -/

namespace Sys2Proof.Machine

/-- Steps 3 and 4 of FEED (R72, R73): the literal the code stands for is stored; no completion test. -/
def feedEscaped (b : Byte) (s : State) : Host.Outcome State Fault Refusal :=
  match appendByte (escapedLiteral b) (setEscape false s) with
  | .error f => .fault f
  | .ok (t, ovf) => answer (.fed false ovf) t

/-- Steps 5 and 6 of FEED (R71, R74, R75): the byte is stored unchanged, then the completion test is made. -/
def feedOrdinary (b : Byte) (s : State) : Host.Outcome State Fault Refusal :=
  match appendByte b (setEscape false s) with
  | .error f => .fault f
  | .ok (t, ovf) =>
    if completes b t then answer (.fed true ovf) (markComplete t)
    else answer (.fed false ovf) t

/-- Steps 1 to 6 of FEED, after the release (R69 to R76). -/
def feedReleased (b : Byte) (s : State) : Host.Outcome State Fault Refusal :=
  if idle s && b != Config.START then answer (.fed false false) s
  else if b == Config.ESC then answer (.fed false false) (setEscape true s)
  else if s.escapePending && isEscapeCode b then feedEscaped b s
  else feedOrdinary b s

/-- `Feed(b)` (R67): step 0, then the rest from the state it leaves. -/
def feedByte (b : Byte) (s : State) : Host.Outcome State Fault Refusal :=
  feedReleased b (release s)

/-- CLEAR (R66). -/
def execClear (s : State) : Host.Outcome State Fault Refusal := answer .cleared (clearBlock s)

/-- FEED (R67). -/
def execFeed (b : Byte) (s : State) : Host.Outcome State Fault Refusal := feedByte b s

/-- The octet START (R46, R69): opens a frame when Idle, an ordinary byte otherwise. -/
def execStart (s : State) : Host.Outcome State Fault Refusal := feedByte Config.START s

/-- The octet END (R46, R75). -/
def execEndMark (s : State) : Host.Outcome State Fault Refusal := feedByte Config.END s

/-- The octet ESC (R46, R70). -/
def execEsc (s : State) : Host.Outcome State Fault Refusal := feedByte Config.ESC s

/-- The octet ESC_END (R46, R72). -/
def execEscEnd (s : State) : Host.Outcome State Fault Refusal := feedByte Config.ESC_END s

/-- The octet ESC_ESC (R46, R73). -/
def execEscEsc (s : State) : Host.Outcome State Fault Refusal := feedByte Config.ESC_ESC s

/-- An octet of class DATA (R46, R74). -/
def execData (b : Byte) (s : State) : Host.Outcome State Fault Refusal := feedByte b s

end Sys2Proof.Machine
end

