-- ==== Sys2Proof/Machine/Dispatch.lean ====
section
/-! DEFINITION. One arm per constructor of Instr, each one direct call of its meaning. -/

namespace Sys2Proof.Machine

def exec (i : Instr) (s : State) : Host.Outcome State Fault Refusal :=
  match i with
  | .clear => Sys2Proof.Machine.execClear s
  | .feed b => Sys2Proof.Machine.execFeed b s
  | .xtel cap => Sys2Proof.Machine.execXtel cap s
  | .xaddr startOffset outStart cap => Sys2Proof.Machine.execXaddr startOffset outStart cap s
  | .xcsum position => Sys2Proof.Machine.execXcsum position s
  | .reservedOp op => Sys2Proof.Machine.execReservedOp op s
  | .start => Sys2Proof.Machine.execStart s
  | .endMark => Sys2Proof.Machine.execEndMark s
  | .esc => Sys2Proof.Machine.execEsc s
  | .escEnd => Sys2Proof.Machine.execEscEnd s
  | .escEsc => Sys2Proof.Machine.execEscEsc s
  | .data b => Sys2Proof.Machine.execData b s

end Sys2Proof.Machine
end

