-- ==== Sys2Proof/Machine/Step.lean ====
section
/-! DEFINITION. One step: the oldest request is performed (spec/20_memory.md R36). -/

namespace Sys2Proof.Machine

/-- One step of the machine. With nothing requested the block holds its state (R141); a reset event takes effect
between operations (R145); an operation is decoded and performed whole (R36). -/
def step (s : State) : Host.Outcome State Fault Refusal :=
  match takeRequest s with
  | none => .next s
  | some (.reset, t) => .next (resetBlock t)
  | some (.word w, t) => exec (decode w) t

/-- `s` with the word of `nbits` bits as its next request, before those already waiting. Bits that are a word of
neither format (R45) are no request. -/
def State.withFetchWord (s : State) (nbits w : Nat) : State :=
  match tableWord nbits w with
  | .ok q => pushRequest (.word q) s
  | .error _ => s

end Sys2Proof.Machine
end

