-- ==== Sys2Proof/Safety.lean ====
section
/-! DEFINITION. The words statements about the machine use: the invariant of spec/42_state_machine.md, what two
states share, what a FEED leaves, traces of operations, and the stuffing encoder (spec/30_encoding.md R56). -/

namespace Sys2Proof.Machine

/-! ### The invariant -/

/-- What holds after reset and after every operation (R19, R108 to R112), with the canonical form of the two byte
spaces. -/
structure Inv (s : State) : Prop where
  /-- R108: `0 <= write_position <= C`. -/
  writePosition_le : s.writePosition.toNat ≤ Config.C
  /-- R109: `frame_length > 0` implies `write_position == frame_length`. -/
  length_eq : 0 < s.frameLength.toNat → s.writePosition = s.frameLength
  /-- R110: `frame_length` is 0 or in `MINLEN + 1 .. C`. -/
  length_range : s.frameLength.toNat = 0 ∨
    (Config.MINLEN + 1 ≤ s.frameLength.toNat ∧ s.frameLength.toNat ≤ Config.C)
  /-- R111: `escape_pending` implies `write_position > 0` and `frame_length == 0`. -/
  escape_accumulating : s.escapePending = true → 0 < s.writePosition.toNat ∧ s.frameLength.toNat = 0
  /-- R112: in FrameReady, `buf[frame_length - 1] == END`. -/
  end_marker : 0 < s.frameLength.toNat → bufByte s (s.frameLength.toNat - 1) = Config.END
  /-- R19: every index of the populated range has been stored to since reset. -/
  populated : ∀ i, i < s.writePosition.toNat → (Memory.read s.buf i).isSome = true
  /-- BUF is in canonical form. -/
  buf_wf : Memory.wf s.buf = true
  /-- BUF has indices `0 .. C - 1` only (R18, R30). -/
  buf_below : Memory.below Config.C s.buf = true
  /-- OUT is in canonical form. -/
  out_wf : Memory.wf s.out = true
  /-- OUT's indices are below any `out_capacity` (R18). -/
  out_below : Memory.below (2 ^ Config.IDXW) s.out = true

/-! ### What two states share -/

/-- The three registers are the same. -/
def SameRegs (s t : State) : Prop :=
  t.writePosition = s.writePosition ∧ t.frameLength = s.frameLength ∧ t.escapePending = s.escapePending

/-- Every byte of BUF reads the same. -/
def SameBuf (s t : State) : Prop := ∀ i, bufByte t i = bufByte s i

/-- Every byte of OUT is the same. -/
def SameOut (s t : State) : Prop := ∀ a, Memory.read t.out a = Memory.read s.out a

/-- The model's own fields beside the result are the same: the draw of BUF's reset contents, and the requests. -/
def SameOwn (s t : State) : Prop := t.resetDraw = s.resetDraw ∧ t.requests = s.requests

/-- Only the result may differ. -/
def SameAllButResult (s t : State) : Prop := SameRegs s t ∧ SameBuf s t ∧ SameOut s t ∧ SameOwn s t

/-- Index `i` of BUF now holds `v`; every other index reads as before. -/
def StoredAt (s t : State) (i : Nat) (v : Byte) : Prop :=
  bufByte t i = v ∧ ∀ j, j ≠ i → bufByte t j = bufByte s j

/-- `out[dst .. dst + n - 1]` of `t` is `buf[src .. src + n - 1]` of `s`; every other byte of OUT is as before. -/
def DeliveredAt (s t : State) (dst src n : Nat) : Prop :=
  (∀ k, k < n → Memory.read t.out (dst + k) = some (bufByte s (src + k))) ∧
  ∀ a, a < dst ∨ dst + n ≤ a → Memory.read t.out a = Memory.read s.out a

/-! ### Kinds of instruction -/

/-- The byte an instruction feeds: the operand of FEED, or the received octet of a BYTE row (R45). -/
def fedByte : Instr → Option Byte
  | .clear => none
  | .feed b => some b
  | .xtel _ => none
  | .xaddr _ _ _ => none
  | .xcsum _ => none
  | .reservedOp _ => none
  | .start => some Config.START
  | .endMark => some Config.END
  | .esc => some Config.ESC
  | .escEnd => some Config.ESC_END
  | .escEsc => some Config.ESC_ESC
  | .data b => some b

/-- The instruction is a FEED, in either spelling. -/
def isFeed (i : Instr) : Bool := (fedByte i).isSome

/-- The instruction is one of the three extraction operations (spec/41_extract.md). -/
def isExtraction : Instr → Bool
  | .clear => false
  | .feed _ => false
  | .xtel _ => true
  | .xaddr _ _ _ => true
  | .xcsum _ => true
  | .reservedOp _ => false
  | .start => false
  | .endMark => false
  | .esc => false
  | .escEnd => false
  | .escEsc => false
  | .data _ => false

/-! ### What a FEED leaves -/

/-- A row of the table of R77: `i` completes in `s`, leaves the three registers at `wp`, `fl`, `esc`, stores in
BUF what `store` says and nothing else, returns `(complete, overflow)`, and touches nothing else. -/
def FeedGives (i : Instr) (s : State) (wp fl : Nat) (esc : Bool) (store : Option (Nat × Byte))
    (complete overflow : Bool) : Prop :=
  ∃ t, exec i s = .next t ∧ t.writePosition.toNat = wp ∧ t.frameLength.toNat = fl ∧ t.escapePending = esc ∧
    (match store with
      | none => SameBuf s t
      | some (k, v) => StoredAt s t k v) ∧
    SameOut s t ∧ SameOwn s t ∧ t.result = .fed complete overflow

/-! ### The scan of XADDR, as R93 words it -/

/-- `T` is the least index at or after `start` and below `write_position` whose byte has bit 0 set. -/
def FieldEndsAt (s : State) (start T : Nat) : Prop :=
  start ≤ T ∧ T < s.writePosition.toNat ∧ (bufByte s T).toNat % 2 = 1 ∧
    ∀ j, start ≤ j → j < T → (bufByte s j).toNat % 2 = 0

/-- No index at or after `start` and below `write_position` has a byte with bit 0 set. -/
def NoTerminator (s : State) (start : Nat) : Prop :=
  ∀ j, start ≤ j → j < s.writePosition.toNat → (bufByte s j).toNat % 2 = 0

/-- The scan from `start` takes `n` bytes. -/
def ScanTakes (s : State) (start n : Nat) : Prop :=
  (∃ T, FieldEndsAt s start T ∧ n = T - start + 1) ∨
    (NoTerminator s start ∧ n = s.writePosition.toNat - start)

/-! ### Traces of operations (R2, R58, R159) -/

/-- The operations requested one after the other: the results they return, and the state after the last. -/
def runOps : List Instr → State → Host.Outcome (List Result × State) Fault Refusal
  | [], s => .next ([], s)
  | i :: is, s =>
    match exec i s with
    | .next t =>
      match runOps is t with
      | .next (rs, u) => .next (t.result :: rs, u)
      | .fault f => .fault f
      | .refused r => .refused r
    | .fault f => .fault f
    | .refused r => .refused r

/-- The result says that a frame is complete (R16). -/
def isComplete : Result → Bool
  | .none => false
  | .cleared => false
  | .fed complete _ => complete
  | .count _ => false
  | .checksum _ => false
  | .fault _ => false

/-- The result says that an overflow reset happened (R16). -/
def isOverflow : Result → Bool
  | .none => false
  | .cleared => false
  | .fed _ overflow => overflow
  | .count _ => false
  | .checksum _ => false
  | .fault _ => false

/-! ### The stuffing encoder, a reference function (R56); not part of the block -/

/-- The bytes one payload byte becomes on the wire. -/
def stuffByte (x : Byte) : List Byte :=
  if x = Config.END then [Config.ESC, Config.ESC_END]
  else if x = Config.ESC then [Config.ESC, Config.ESC_ESC]
  else [x]

/-- `stuff(P)` (R56). -/
def stuff : List Byte → List Byte
  | [] => []
  | x :: rest => stuffByte x ++ stuff rest

/-- `FRAME(P)` (R58): the FEEDs of `[START] ++ stuff(P) ++ [END]`. -/
def frameOps (payload : List Byte) : List Instr :=
  (Config.START :: stuff payload ++ [Config.END]).map Instr.feed

end Sys2Proof.Machine
end

