-- ==== Sys2Proof/Certificates/Slice0/Obligations.lean ====
section
/-! DEFINITION. The statements about the FrameAssembler, from the numbered rules of spec/. -/

open Sys2Proof Sys2Proof.Machine

/-! ### Parameters and encoding -/

/-- R5: the parameters at the values this hardware takes (`C = 512` is decision D13, log entry 1), and the
constraints they meet there. -/
def Obligations.ParametersMeetConstraints : Prop :=
  Config.C = 512 ∧ Config.IDXW = 16 ∧ Config.PTRW = 10 ∧ Config.START = 0x37 ∧ Config.END = 0xC0 ∧
  Config.ESC = 0xDB ∧ Config.ESC_END = 0xDC ∧ Config.ESC_ESC = 0xDD ∧ Config.MINLEN = 80 ∧
  Config.FORMAT_ID = 0xA0 ∧
  512 ≤ Config.C ∧ Config.MINLEN < Config.C ∧ Config.C ≤ 2 ^ Config.IDXW ∧ Config.C < 2 ^ Config.PTRW ∧
  Config.namedBytes.Nodup

/-- R45, R51: decoding the words of any well-formed instruction gives it back, operands and all. -/
def Obligations.DecodeOfEncode : Prop :=
  ∀ i : Instr, i.wf = true → decode (encode i) = i

/-- R46, R53, R54: every word of either format is a well-formed instruction. -/
def Obligations.EveryWordDecodesWellFormed : Prop :=
  ∀ q : RequestWord, (decode q).wf = true

/-- R51, R52: a CMD word is decoded by its `op` alone, and its instruction takes its operands from the fields the
table gives it, so the ignored fields change nothing. -/
def Obligations.CmdWordDecodesByOp : Prop :=
  ∀ w : CmdWord,
    (w.extractLsb' 48 8 = 0x00 → decode (.cmd w) = .clear) ∧
    (w.extractLsb' 48 8 = 0x01 → decode (.cmd w) = .feed (w.extractLsb' 0 8)) ∧
    (w.extractLsb' 48 8 = 0x02 → decode (.cmd w) = .xtel (w.extractLsb' 0 16)) ∧
    (w.extractLsb' 48 8 = 0x03 →
      decode (.cmd w) = .xaddr (w.extractLsb' 32 16) (w.extractLsb' 16 16) (w.extractLsb' 0 16)) ∧
    (w.extractLsb' 48 8 = 0x04 → decode (.cmd w) = .xcsum (w.extractLsb' 32 16)) ∧
    (5 ≤ (w.extractLsb' 48 8).toNat → decode (.cmd w) = .reservedOp (w.extractLsb' 48 8))

/-- R46: the six classes of octets, by value alone. -/
def Obligations.OctetClasses : Prop :=
  decode (.byte 0x37) = .start ∧ decode (.byte 0xC0) = .endMark ∧ decode (.byte 0xDB) = .esc ∧
  decode (.byte 0xDC) = .escEnd ∧ decode (.byte 0xDD) = .escEsc ∧
  ∀ b : Byte, b ∉ [0x37, 0xC0, 0xDB, 0xDC, 0xDD] → decode (.byte b) = .data b

/-- The words V-E1 to V-E10 of spec/95_test_vectors.md. -/
def Obligations.SpecWordsDecode : Prop :=
  decode (.cmd 0x00000000000000) = .clear ∧ decode (.cmd 0x01000000000037) = .feed 0x37 ∧
  decode (.cmd 0x010000000000C0) = .feed 0xC0 ∧ decode (.cmd 0x02000000000200) = .xtel 512 ∧
  decode (.cmd 0x03000100000008) = .xaddr 1 0 8 ∧ decode (.cmd 0x03000400030008) = .xaddr 4 3 8 ∧
  decode (.cmd 0x04004D00000000) = .xcsum 77 ∧ decode (.cmd 0x05000000000000) = .reservedOp 0x05 ∧
  decode (.cmd 0x01FFFFFFFFFF37) = .feed 0x37 ∧ decode (.cmd 0x00ABCD12345678) = .clear

/-- A received octet is FEED with that operand, so the six BYTE rows do what FEED does (DEDUCED from R45, R46: log
entry 8). -/
def Obligations.OctetsAreFeeds : Prop :=
  ∀ s : State,
    (∀ b : Byte, exec (decode (.byte b)) s = exec (.feed b) s) ∧
    exec .start s = exec (.feed 0x37) s ∧ exec .endMark s = exec (.feed 0xC0) s ∧
    exec .esc s = exec (.feed 0xDB) s ∧ exec .escEnd s = exec (.feed 0xDC) s ∧
    exec .escEsc s = exec (.feed 0xDD) s ∧ ∀ b : Byte, exec (.data b) s = exec (.feed b) s

/-! ### Steps, reset, the invariant -/

/-- R36: when the oldest request is a word that decodes to `i`, the step is the whole of `i` in the state without
that request; and any well-formed `i` is performed by requesting its encoding. The queue is the model's
(log entry 5). -/
def Obligations.StepRunsDecodedInstruction : Prop :=
  ∀ (s : State) (w : RequestWord) (rest : List Request) (i : Instr),
    s.requests = .word w :: rest →
    (decode w = i → step s = exec i { s with requests := rest }) ∧
    (i.wf = true → w = encode i → step s = exec i { s with requests := rest })

/-- R141: "between operations it simply holds its state": with nothing requested a step changes nothing
(the model's choice of what a step is then, log entry 5). -/
def Obligations.StepHoldsStateBetweenOperations : Prop :=
  ∀ s : State, s.requests = [] → step s = .next s

/-- R22, R24: the state after reset. Every byte of BUF is the free value of its draw, that is unspecified. -/
def Obligations.ResetLeavesRegistersClear : Prop :=
  State.reset.writePosition = 0 ∧ State.reset.frameLength = 0 ∧ State.reset.escapePending = false ∧
  ready State.reset = false ∧ idle State.reset = true ∧
  ∀ i, bufByte State.reset i = Config.resetByte State.reset.resetDraw i

/-- R145: the reset event completes, leaves the registers as CLEAR does, the block Idle, and every byte of BUF
unspecified (a free value of the draw in force afterwards), whatever was stored before. -/
def Obligations.ResetEventClearsBlock : Prop :=
  ∀ (s : State) (rest : List Request), s.requests = .reset :: rest →
    ∃ t c, step s = .next t ∧ exec .clear s = .next c ∧ SameRegs c t ∧
      t.writePosition = 0 ∧ t.frameLength = 0 ∧ t.escapePending = false ∧ mode t = .idle ∧
      ∀ i, bufByte t i = Config.resetByte t.resetDraw i

/-- The model's rendering of "unspecified" at a reset event: the draw advances (log entry 2); OUT, which is not
the block's, stays, and the other requests stay (log entries 4, 5). -/
def Obligations.ResetEventTakesNewDraw : Prop :=
  ∀ (s : State) (rest : List Request), s.requests = .reset :: rest →
    ∃ t, step s = .next t ∧ t.resetDraw = s.resetDraw + 1 ∧ SameOut s t ∧ t.requests = rest ∧ t.result = .none

/-- The invariant holds after reset (R19, R108 to R112). -/
def Obligations.ResetMeetsInvariant : Prop := Inv State.reset

/-- R19, R108 to R112, and the canonical form of the byte spaces: every step keeps the invariant. -/
def Obligations.StepKeepsInvariant : Prop :=
  ∀ s t : State, Inv s → step s = .next t → Inv t

/-- R107: from a state that meets the invariant every step answers a next state: no fault stops the machine, no
instruction is refused, and every FEED of every byte has its transition. -/
def Obligations.StepNeverStops : Prop :=
  ∀ s : State, Inv s →
    (∃ t, step s = .next t) ∧ (∀ i : Instr, ∃ t, exec i s = .next t) ∧
    ∀ b : Byte, ∃ t, exec (.feed b) s = .next t

/-! ### CLEAR -/

/-- R66: CLEAR completes in every state; the registers go to 0/false, BUF and OUT keep every byte, `Ready` becomes
false and `idle` true, there is no result value, and a second CLEAR changes nothing. -/
def Obligations.ClearResetsRegistersKeepsBuffer : Prop :=
  ∀ s : State, ∃ t, exec .clear s = .next t ∧ t.writePosition = 0 ∧ t.frameLength = 0 ∧
    t.escapePending = false ∧ SameBuf s t ∧ SameOut s t ∧ SameOwn s t ∧ ready t = false ∧ idle t = true ∧
    t.result = .cleared ∧ exec .clear t = .next t

/-! ### FEED, in both spellings: `fedByte i = some b` holds of FEED and of the six BYTE rows -/

/-- R68: in FrameReady, FEED first performs CLEAR and then handles its byte from the cleared state. So START opens
a new frame at index 0, and any other byte is discarded and leaves the block Idle. -/
def Obligations.FeedReleasesCompleteFrame : Prop :=
  ∀ (i : Instr) (b : Byte) (s : State), fedByte i = some b → ready s = true →
    (∀ c, exec .clear s = .next c → exec i s = exec i c) ∧
    (b = 0x37 → FeedGives i s 1 0 false (some (0, 0x37)) false false) ∧
    (b ≠ 0x37 → FeedGives i s 0 0 false none false false)

/-- R69: at `write_position == 0` a byte other than START is discarded with no change at all, an ESC included;
START is stored at index 0. -/
def Obligations.FeedIdleTest : Prop :=
  ∀ (i : Instr) (b : Byte) (s : State), fedByte i = some b → s.writePosition = 0 →
    (b ≠ 0x37 → FeedGives i s 0 s.frameLength.toNat s.escapePending none false false) ∧
    (b = 0x37 → FeedGives i s 1 s.frameLength.toNat false (some (0, 0x37)) false false)

/-- R70: an ESC sets `escape_pending` and stores nothing, whether or not it was set, a full buffer included. -/
def Obligations.FeedEscapeIntroducer : Prop :=
  ∀ (i : Instr) (s : State), fedByte i = some 0xDB → ready s = false → s.writePosition ≠ 0 →
    FeedGives i s s.writePosition.toNat s.frameLength.toNat true none false false

/-- R72: with `escape_pending`, ESC_END stores the literal `0xC0` and never completes a frame; at a full buffer
the overflow reset comes first. -/
def Obligations.FeedEscapedEndMarker : Prop :=
  ∀ (i : Instr) (s : State), fedByte i = some 0xDC → ready s = false → s.writePosition ≠ 0 →
    s.escapePending = true →
    (s.writePosition.toNat < Config.C →
      FeedGives i s (s.writePosition.toNat + 1) s.frameLength.toNat false
        (some (s.writePosition.toNat, 0xC0)) false false) ∧
    (s.writePosition.toNat = Config.C → FeedGives i s 1 0 false (some (0, 0xC0)) false true)

/-- R73: with `escape_pending`, ESC_ESC stores the literal `0xDB`; at a full buffer the overflow reset comes
first. -/
def Obligations.FeedEscapedIntroducer : Prop :=
  ∀ (i : Instr) (s : State), fedByte i = some 0xDD → ready s = false → s.writePosition ≠ 0 →
    s.escapePending = true →
    (s.writePosition.toNat < Config.C →
      FeedGives i s (s.writePosition.toNat + 1) s.frameLength.toNat false
        (some (s.writePosition.toNat, 0xDB)) false false) ∧
    (s.writePosition.toNat = Config.C → FeedGives i s 1 0 false (some (0, 0xDB)) false true)

/-- R71, R74: every byte that is not ESC and no escaped code is stored unchanged, and `escape_pending` is cleared;
here where it does not complete a frame (`FeedCompletesFrame` says where it does). -/
def Obligations.FeedOrdinaryByte : Prop :=
  ∀ (i : Instr) (b : Byte) (s : State), fedByte i = some b → ready s = false → s.writePosition ≠ 0 →
    b ≠ 0xDB → (s.escapePending = true → b ≠ 0xDC ∧ b ≠ 0xDD) →
    (s.writePosition.toNat < Config.C → ¬ (b = 0xC0 ∧ Config.MINLEN < s.writePosition.toNat + 1) →
      FeedGives i s (s.writePosition.toNat + 1) s.frameLength.toNat false
        (some (s.writePosition.toNat, b)) false false) ∧
    (s.writePosition.toNat = Config.C → FeedGives i s 1 0 false (some (0, b)) false true)

/-- R75: an END that is stored as an ordinary byte completes the frame exactly when `write_position`, after the
store, exceeds `MINLEN`; then `frame_length` is `write_position` and `Ready` holds. -/
def Obligations.FeedCompletesFrame : Prop :=
  (∀ (i : Instr) (s : State), fedByte i = some 0xC0 → ready s = false → s.writePosition ≠ 0 →
    s.writePosition.toNat < Config.C →
    (Config.MINLEN < s.writePosition.toNat + 1 →
      FeedGives i s (s.writePosition.toNat + 1) (s.writePosition.toNat + 1) false
        (some (s.writePosition.toNat, 0xC0)) true false) ∧
    (s.writePosition.toNat + 1 ≤ Config.MINLEN →
      FeedGives i s (s.writePosition.toNat + 1) s.frameLength.toNat false
        (some (s.writePosition.toNat, 0xC0)) false false)) ∧
  ∀ (i : Instr) (b : Byte) (s t : State) (o : Bool), fedByte i = some b → exec i s = .next t →
    t.result = .fed true o →
    b = 0xC0 ∧ Config.MINLEN < t.writePosition.toNat ∧ t.frameLength = t.writePosition ∧ ready t = true

/-- R76, R117: a store at a full buffer is preceded by an overflow reset, the byte (or the literal it stands for)
goes to index 0 without a second idle test, and `overflow` is returned; it is returned in no other case. -/
def Obligations.FeedOverflowReset : Prop :=
  (∀ (i : Instr) (b : Byte) (s : State), fedByte i = some b → ready s = false →
    s.writePosition.toNat = Config.C → b ≠ 0xDB →
    FeedGives i s 1 0 false
      (some (0, if s.escapePending = true ∧ b = 0xDC then 0xC0
        else if s.escapePending = true ∧ b = 0xDD then 0xDB else b)) false true) ∧
  ∀ (i : Instr) (b : Byte) (s t : State) (c : Bool), fedByte i = some b → exec i s = .next t →
    t.result = .fed c true → s.writePosition.toNat = Config.C ∧ ready s = false ∧ b ≠ 0xDB

/-- The frame of FEED (R26, R69, R70): OUT, the draw and the requests stay; a form that stores nothing leaves
every byte of BUF; a form that stores leaves every byte but the one at the index the meaning stores to. -/
def Obligations.FeedFrame : Prop :=
  ∀ (i : Instr) (b : Byte) (s t : State), fedByte i = some b → exec i s = .next t →
    SameOut s t ∧ SameOwn s t ∧
    (b = 0xDB ∨ (idle (release s) = true ∧ b ≠ 0x37) → SameBuf s t) ∧
    ∀ a, a ≠ appendIndex (setEscape false (release s)) → bufByte t a = bufByte s a

/-- R13, R71: after a FEED, `escape_pending` is true exactly when the byte was ESC and was not discarded. -/
def Obligations.EscapePendingAfterFeed : Prop :=
  ∀ (i : Instr) (b : Byte) (s t : State), Inv s → fedByte i = some b → exec i s = .next t →
    (t.escapePending = true ↔ b = 0xDB ∧ mode s = .accumulating)

/-- R49: the escape decoder, over the two FEEDs of an escape sequence seen while a frame is in progress: the
introducer is not stored, an escape code stores the byte it stands for, any other byte but ESC is stored itself;
at a full buffer the store goes to index 0 (R76). -/
def Obligations.EscapeSequenceStoresOneByte : Prop :=
  ∀ (s : State) (x : Byte), Inv s → mode s = .accumulating → x ≠ 0xDB →
    ∃ rs t, runOps [.feed 0xDB, .feed x] s = .next (rs, t) ∧ t.escapePending = false ∧
      ∃ k, k = (if s.writePosition.toNat = Config.C then 0 else s.writePosition.toNat) ∧
        t.writePosition.toNat = k + 1 ∧
        StoredAt s t k (if x = 0xDC then 0xC0 else if x = 0xDD then 0xDB else x)

/-- R156: an introducer followed by a raw end marker ends the frame if the floor is met. -/
def Obligations.EscapedRawEndCompletes : Prop :=
  ∀ s : State, Inv s → mode s = .accumulating → s.writePosition.toNat < Config.C →
    Config.MINLEN ≤ s.writePosition.toNat →
    ∃ t, runOps [.feed 0xDB, .feed 0xC0] s = .next ([.fed false false, .fed true false], t) ∧
      mode t = .frameReady ∧ t.frameLength.toNat = s.writePosition.toNat + 1

/-- R78: FEED never reads BUF: in two states with the same registers it returns the same result and leaves the
same registers. -/
def Obligations.FeedNeverReadsBuffer : Prop :=
  ∀ (i : Instr) (b : Byte) (s s' t : State), fedByte i = some b → SameRegs s s' → exec i s = .next t →
    ∃ t', exec i s' = .next t' ∧ SameRegs t t' ∧ t'.result = t.result

/-- R54, R65: CLEAR and FEED complete for every operand in every state with `write_position <= C` (R108), and
raise no fault. -/
def Obligations.StreamOperationsNeverFault : Prop :=
  ∀ (i : Instr) (s : State), s.writePosition.toNat ≤ Config.C → (i = .clear ∨ ∃ b, fedByte i = some b) →
    ∃ t, exec i s = .next t ∧ ∀ f, t.result ≠ .fault f

/-- R16, R67: `complete` is the moment `Ready` becomes true, and the two result bits of FEED are never both true. -/
def Obligations.CompleteResultMatchesReady : Prop :=
  ∀ (i : Instr) (b : Byte) (s t : State), Inv s → fedByte i = some b → exec i s = .next t →
    (t.result = .fed true false ↔ ready t = true) ∧ t.result ≠ .fed true true

/-! ### The state machine and the laws of the stream -/

/-- R105: the three states as predicates on the registers, exclusive and exhaustive; on states that meet the
invariant Accumulating is `wp > 0 and fl == 0`, and `escape_pending` is false outside it. -/
def Obligations.ModesArePredicates : Prop :=
  ∀ s : State,
    (mode s = .idle ↔ s.writePosition.toNat = 0) ∧
    (mode s = .frameReady ↔ 0 < s.frameLength.toNat ∧ s.writePosition = s.frameLength) ∧
    (mode s = .accumulating ↔ 0 < s.writePosition.toNat ∧ ready s = false) ∧
    (Inv s →
      (mode s = .accumulating ↔ 0 < s.writePosition.toNat ∧ s.frameLength.toNat = 0) ∧
      (mode s ≠ .accumulating → s.escapePending = false))

/-- R106: the complete table of transitions, each row completing. -/
def Obligations.TransitionTable : Prop :=
  ∀ (s : State), Inv s →
    (∀ (i : Instr) (b : Byte), fedByte i = some b → ∃ t, exec i s = .next t ∧
      (mode s = .idle → b ≠ 0x37 → mode t = .idle) ∧
      (mode s = .idle → b = 0x37 →
        mode t = .accumulating ∧ t.escapePending = false ∧ t.writePosition.toNat = 1) ∧
      (mode s = .accumulating → b = 0xDB →
        mode t = .accumulating ∧ t.escapePending = true ∧ t.writePosition = s.writePosition) ∧
      (mode s = .accumulating → s.escapePending = true → (b = 0xDC ∨ b = 0xDD) →
        s.writePosition.toNat < Config.C →
        mode t = .accumulating ∧ t.escapePending = false ∧
          t.writePosition.toNat = s.writePosition.toNat + 1) ∧
      (mode s = .accumulating → b ≠ 0xDB → s.writePosition.toNat < Config.C →
        ¬ (b = 0xC0 ∧ Config.MINLEN < s.writePosition.toNat + 1) →
        mode t = .accumulating ∧ t.escapePending = false ∧
          t.writePosition.toNat = s.writePosition.toNat + 1) ∧
      (mode s = .accumulating → b = 0xC0 → s.writePosition.toNat < Config.C →
        Config.MINLEN < s.writePosition.toNat + 1 →
        mode t = .frameReady ∧ t.frameLength.toNat = s.writePosition.toNat + 1) ∧
      (mode s = .accumulating → b ≠ 0xDB → s.writePosition.toNat = Config.C →
        mode t = .accumulating ∧ t.escapePending = false ∧ t.writePosition.toNat = 1 ∧
          t.result = .fed false true) ∧
      (mode s = .frameReady → b ≠ 0x37 → mode t = .idle) ∧
      (mode s = .frameReady → b = 0x37 →
        mode t = .accumulating ∧ t.escapePending = false ∧ t.writePosition.toNat = 1)) ∧
    (∃ t, exec .clear s = .next t ∧ mode t = .idle) ∧
    (∀ rest, s.requests = .reset :: rest → ∃ t, step s = .next t ∧ mode t = .idle) ∧
    ∀ i : Instr, isExtraction i = true → ∃ t, exec i s = .next t ∧ mode t = mode s

/-- R115: from an Idle state, any sequence of FEEDs without START returns only (false, false) and changes no
register and no byte of BUF; from every state that is not Idle some byte other than START changes a register. -/
def Obligations.IdleAbsorbsUntilStart : Prop :=
  (∀ (s : State) (bs : List Byte), idle s = true → 0x37 ∉ bs →
    ∃ rs t, runOps (bs.map Instr.feed) s = .next (rs, t) ∧ rs = List.replicate bs.length (.fed false false) ∧
      SameRegs s t ∧ SameBuf s t ∧ SameOut s t ∧ SameOwn s t) ∧
  ∀ s : State, Inv s → idle s = false → ∃ b t, b ≠ 0x37 ∧ exec (.feed b) s = .next t ∧ ¬ SameRegs s t

/-- R56: no END is left in a stuffed payload, and every ESC in it is followed by an escape code. -/
def Obligations.StuffedPayloadHidesMarkers : Prop :=
  ∀ payload : List Byte,
    0xC0 ∉ stuff payload ∧
    ∀ k : Nat, (stuff payload)[k]? = some (0xDB : Byte) →
      (stuff payload)[k + 1]? = some (0xDC : Byte) ∨ (stuff payload)[k + 1]? = some (0xDD : Byte)

/-- R116, its main part: any payload of `MINLEN - 1` to `C - 2` bytes, stuffed and framed and fed from any Idle
state, completes exactly at its last FEED and never overflows, and XTEL then delivers START and the payload. -/
def Obligations.FramedPayloadRoundTrip : Prop :=
  ∀ (payload : List Byte) (s : State), Inv s → mode s = .idle →
    Config.MINLEN - 1 ≤ payload.length → payload.length ≤ Config.C - 2 →
    ∃ rs t, runOps (frameOps payload) s = .next (rs, t) ∧
      rs = List.replicate ((frameOps payload).length - 1) (.fed false false) ++ [.fed true false] ∧
      mode t = .frameReady ∧ t.frameLength.toNat = payload.length + 2 ∧
      ∀ cap : Operand, payload.length + 1 ≤ cap.toNat →
        ∃ u, exec (.xtel cap) t = .next u ∧ u.result = .count (payload.length + 1) ∧
          Memory.read u.out 0 = some 0x37 ∧ ∀ k, k < payload.length → Memory.read u.out (k + 1) = payload[k]?

/-- R116, its two bounds: a framed payload shorter than `MINLEN - 1` bytes never completes and its END is data;
one longer than `C - 2` bytes meets an overflow reset. -/
def Obligations.FramedPayloadBounds : Prop :=
  ∀ (payload : List Byte) (s : State), Inv s → mode s = .idle →
    (payload.length < Config.MINLEN - 1 →
      ∃ rs t, runOps (frameOps payload) s = .next (rs, t) ∧
        rs = List.replicate (frameOps payload).length (.fed false false) ∧ mode t = .accumulating ∧
        t.writePosition.toNat = payload.length + 2 ∧ bufByte t (payload.length + 1) = 0xC0) ∧
    (Config.C - 2 < payload.length →
      ∃ rs t, runOps (frameOps payload) s = .next (rs, t) ∧ rs.any isOverflow = true)

/-- R113, R151: an overflow reset opens an accumulation that need not begin with START, and what follows is
delivered like any frame: its first byte is the one that overflowed. -/
def Obligations.OverflowTailDeliveredAsFrame : Prop :=
  ∀ (b : Byte) (payload : List Byte) (s : State), Inv s → mode s = .accumulating →
    s.writePosition.toNat = Config.C → s.escapePending = false → b ≠ 0xDB →
    Config.MINLEN - 1 ≤ payload.length → payload.length ≤ Config.C - 2 →
    ∃ rs t, runOps (.feed b :: (stuff payload ++ [0xC0]).map Instr.feed) s = .next (rs, t) ∧
      rs[0]? = some (.fed false true) ∧ rs.getLast? = some (.fed true false) ∧ mode t = .frameReady ∧
      ∀ cap : Operand, payload.length + 1 ≤ cap.toNat →
        ∃ u, exec (.xtel cap) t = .next u ∧ u.result = .count (payload.length + 1) ∧
          Memory.read u.out 0 = some b ∧ ∀ k, k < payload.length → Memory.read u.out (k + 1) = payload[k]?

/-- R114: between two completions there are at least `MINLEN + 1` FEEDs; so no 81 consecutive requests hold two
completions. -/
def Obligations.CompletionsAreSpaced : Prop :=
  (∀ (s t : State) (ops : List Instr) (rs : List Result), Inv s → ready s = true →
    runOps ops s = .next (rs, t) → rs.any isComplete = true → Config.MINLEN + 1 ≤ ops.countP isFeed) ∧
  ∀ (s t : State) (ops : List Instr) (rs : List Result), Inv s → ops.length ≤ Config.MINLEN + 1 →
    runOps ops s = .next (rs, t) → rs.countP isComplete ≤ 1

/-- R131, R38: while only extraction operations are requested, the status output `ready` and the whole block stay
as they are, whichever and however many they are. -/
def Obligations.ReadyHoldsUntilNextStreamOperation : Prop :=
  ∀ (s : State) (ops : List Instr), Inv s → (∀ i ∈ ops, isExtraction i = true) →
    ∃ rs t, runOps ops s = .next (rs, t) ∧ ready t = ready s ∧ SameRegs s t ∧ SameBuf s t ∧ SameOwn s t

/-! ### The extraction operations -/

/-- R91: XTEL. Outside FrameReady it returns 0 whatever the capacity and OUT is unchanged; with room it copies
`buf[0 .. frame_length - 2]` and returns the count; without room it raises OutBufferTooSmall and OUT is unchanged.
The block is unchanged. A returned count is 0 or in `MINLEN .. C - 1`, and 0 exactly when no frame is available. -/
def Obligations.XtelCopiesTelegram : Prop :=
  ∀ (cap : Operand) (s : State),
    (ready s = false → ∃ t, exec (.xtel cap) s = .next t ∧ t.result = .count 0 ∧ SameAllButResult s t) ∧
    (ready s = true → s.writePosition.toNat ≤ Config.C → s.frameLength.toNat - 1 ≤ cap.toNat →
      ∃ t, exec (.xtel cap) s = .next t ∧ t.result = .count (s.frameLength.toNat - 1) ∧
        DeliveredAt s t 0 0 (s.frameLength.toNat - 1) ∧ SameRegs s t ∧ SameBuf s t ∧ SameOwn s t) ∧
    (ready s = true → cap.toNat < s.frameLength.toNat - 1 →
      ∃ t, exec (.xtel cap) s = .next t ∧
        t.result = .fault (.outBufferTooSmall (s.frameLength.toNat - 1) cap) ∧ SameAllButResult s t) ∧
    ∀ (t : State) (n : Nat), Inv s → exec (.xtel cap) s = .next t → t.result = .count n →
      (n = 0 ∨ (Config.MINLEN ≤ n ∧ n ≤ Config.C - 1)) ∧ (n = 0 ↔ ready s = false)

/-- R92, R148, R20: once a frame has been released by a FEED or cleared, XTEL returns 0, although the bytes are
still in BUF: all of them, but for index 0 where the FEED was of a START, which is stored there. -/
def Obligations.XtelAfterReleaseReturnsZero : Prop :=
  ∀ (i : Instr) (s t : State) (cap : Operand), ready s = true → (i = .clear ∨ ∃ b, fedByte i = some b) →
    exec i s = .next t →
    (∃ u, exec (.xtel cap) t = .next u ∧ u.result = .count 0) ∧
      ∀ j, j ≠ 0 ∨ fedByte i ≠ some 0x37 → bufByte t j = bufByte s j

/-- R93: XADDR. With a terminator at `T` and room, the bytes from `start_offset` to `T` are copied and counted;
without a terminator the scanned bytes are copied and the result is 0; where bytes to be written do not fit,
OutBufferTooSmall is raised and OUT is unchanged; with nothing to scan there is no fault. The block is unchanged. -/
def Obligations.XaddrScansAddressField : Prop :=
  ∀ (startOffset outStart cap : Operand) (s : State), s.writePosition.toNat ≤ Config.C →
    (∀ T, FieldEndsAt s startOffset.toNat T →
      outStart.toNat + (T - startOffset.toNat + 1) ≤ cap.toNat →
      ∃ t, exec (.xaddr startOffset outStart cap) s = .next t ∧
        t.result = .count (T - startOffset.toNat + 1) ∧
        DeliveredAt s t outStart.toNat startOffset.toNat (T - startOffset.toNat + 1) ∧
        SameRegs s t ∧ SameBuf s t ∧ SameOwn s t) ∧
    (∀ n, NoTerminator s startOffset.toNat → n = s.writePosition.toNat - startOffset.toNat →
      n = 0 ∨ outStart.toNat + n ≤ cap.toNat →
      ∃ t, exec (.xaddr startOffset outStart cap) s = .next t ∧ t.result = .count 0 ∧
        DeliveredAt s t outStart.toNat startOffset.toNat n ∧ SameRegs s t ∧ SameBuf s t ∧ SameOwn s t) ∧
    ∀ n, ScanTakes s startOffset.toNat n → 0 < n → cap.toNat < outStart.toNat + n →
      ∃ t, exec (.xaddr startOffset outStart cap) s = .next t ∧
        t.result = .fault (.outBufferTooSmall (outStart.toNat + n) cap) ∧ SameAllButResult s t

/-- R95: XADDR depends on BUF only inside the populated range: two states that agree on the registers and on
those bytes give the same result and deliver the same bytes. -/
def Obligations.XaddrReadsPopulatedRangeOnly : Prop :=
  ∀ (startOffset outStart cap : Operand) (s s' t : State), s.writePosition.toNat ≤ Config.C →
    SameRegs s s' → SameOut s s' → (∀ i, i < s.writePosition.toNat → bufByte s' i = bufByte s i) →
    exec (.xaddr startOffset outStart cap) s = .next t →
    ∃ t', exec (.xaddr startOffset outStart cap) s' = .next t' ∧ t'.result = t.result ∧ SameOut t t'

/-- R96, R33: XCSUM returns `buf[position+2] * 256 + buf[position+1]` for every position with `position + 2 < C`,
populated or not, and raises PositionOutOfRange for every other; nothing else changes. -/
def Obligations.XcsumReadsPositionalPair : Prop :=
  ∀ (position : Operand) (s : State),
    (position.toNat + 2 < Config.C →
      ∃ t v, exec (.xcsum position) s = .next t ∧ t.result = .checksum v ∧
        v.toNat = (bufByte s (position.toNat + 2)).toNat * 256 + (bufByte s (position.toNat + 1)).toNat ∧
        SameAllButResult s t) ∧
    (Config.C ≤ position.toNat + 2 →
      ∃ t, exec (.xcsum position) s = .next t ∧ t.result = .fault (.positionOutOfRange position) ∧
        SameAllButResult s t)

/-- R20, R21: after a CLEAR every XCSUM still returns what it returned before, although XTEL and XADDR return 0. -/
def Obligations.StaleBytesStayReadable : Prop :=
  ∀ (s c : State), exec .clear s = .next c →
    (∀ (position : Operand) (t : State), exec (.xcsum position) s = .next t →
      ∃ u, exec (.xcsum position) c = .next u ∧ u.result = t.result) ∧
    (∀ cap : Operand, ∃ u, exec (.xtel cap) c = .next u ∧ u.result = .count 0) ∧
    ∀ startOffset outStart cap : Operand,
      ∃ u, exec (.xaddr startOffset outStart cap) c = .next u ∧ u.result = .count 0

/-- R98, R38: extraction operations, whichever and however many, do not change what the next one returns. -/
def Obligations.ExtractionsAreIndependent : Prop :=
  ∀ (ops : List Instr) (j : Instr) (s t u : State) (rs : List Result),
    (∀ i ∈ ops, isExtraction i = true) → isExtraction j = true →
    runOps ops s = .next (rs, t) → exec j s = .next u → ∃ v, exec j t = .next v ∧ v.result = u.result

/-! ### Rules of the whole machine -/

/-- R26: who may write what, for the six operations; `ResetEventClearsBlock` says it of the reset event. -/
def Obligations.WritePermissions : Prop :=
  ∀ (i : Instr) (s t : State), exec i s = .next t →
    (isExtraction i = true → SameRegs s t ∧ SameBuf s t) ∧
    (i = .clear → t.writePosition = 0 ∧ t.frameLength = 0 ∧ t.escapePending = false ∧ SameBuf s t) ∧
    (∀ op, i = .reservedOp op → SameAllButResult s t) ∧
    (∀ b, fedByte i = some b →
      (t.writePosition = s.writePosition ∨ t.writePosition = 0 ∨
        t.writePosition.toNat = s.writePosition.toNat + 1 ∨ t.writePosition = 1) ∧
      (t.frameLength = s.frameLength ∨ t.frameLength = 0 ∨ t.frameLength = t.writePosition) ∧
      ∃ k, (k = s.writePosition.toNat ∨ k = 0) ∧ ∀ j, j ≠ k → bufByte t j = bufByte s j) ∧
    ((∀ cap, i ≠ .xtel cap) → (∀ a b c, i ≠ .xaddr a b c) → SameOut s t) ∧
    (∀ cap, i = .xtel cap → DeliveredAt s t 0 0
      (if ready s = true ∧ s.frameLength.toNat - 1 ≤ cap.toNat then s.frameLength.toNat - 1 else 0)) ∧
    (∀ a b c n, i = .xaddr a b c → s.writePosition.toNat ≤ Config.C → ScanTakes s a.toNat n →
      DeliveredAt s t b.toNat a.toNat (if b.toNat + n ≤ c.toNat then n else 0)) ∧
    SameOwn s t

/-- R27: an operation that ends in a fault writes nothing. -/
def Obligations.FaultWritesNothing : Prop :=
  ∀ (i : Instr) (s t : State) (f : OpFault), exec i s = .next t → t.result = .fault f →
    SameRegs s t ∧ t.buf = s.buf ∧ t.out = s.out ∧ SameOwn s t

/-- R126: when each of the three faults is raised, with its information and its code, and by nothing else; and a
fault is not latched: whatever is requested next proceeds as if the faulting request had not been made. -/
def Obligations.FaultsRaisedExactlyWhen : Prop :=
  (∀ (i : Instr) (s t : State), s.writePosition.toNat ≤ Config.C → exec i s = .next t →
    (∀ op, t.result = .fault (.illegalOperation op) ↔ i = .reservedOp op) ∧
    (∀ n cap, t.result = .fault (.outBufferTooSmall n cap) ↔
      (i = .xtel cap ∧ ready s = true ∧ n = s.frameLength.toNat - 1 ∧ cap.toNat < n) ∨
      ∃ a b m, i = .xaddr a b cap ∧ ScanTakes s a.toNat m ∧ 0 < m ∧ n = b.toNat + m ∧ cap.toNat < n) ∧
    (∀ p, t.result = .fault (.positionOutOfRange p) ↔ i = .xcsum p ∧ Config.C ≤ p.toNat + 2) ∧
    ∀ (f : OpFault) (j : Instr), t.result = .fault f → exec j t = exec j s) ∧
  (∀ op, (OpFault.illegalOperation op).code = 1) ∧ (∀ n cap, (OpFault.outBufferTooSmall n cap).code = 2) ∧
  ∀ p, (OpFault.positionOutOfRange p).code = 3

/-- R53: requesting a reserved operation code completes with the fault IllegalOperation(op) and changes no
state. -/
def Obligations.ReservedOpRaisesIllegalOperation : Prop :=
  ∀ (w : CmdWord) (s : State), 5 ≤ (w.extractLsb' 48 8).toNat →
    decode (.cmd w) = .reservedOp (w.extractLsb' 48 8) ∧
    ∃ t, exec (.reservedOp (w.extractLsb' 48 8)) s = .next t ∧
      t.result = .fault (.illegalOperation (w.extractLsb' 48 8)) ∧ SameAllButResult s t

/-- R41: OUT is never read: whatever it holds, an operation returns the same result and leaves the same block,
and it writes the same bytes. -/
def Obligations.OutIsNeverRead : Prop :=
  ∀ (i : Instr) (s t : State) (m : Memory), exec i s = .next t →
    ∃ t', exec i { s with out := m } = .next t' ∧ SameRegs t t' ∧ t'.buf = t.buf ∧ SameOwn t t' ∧
      t'.result = t.result ∧
      ∀ a, (Memory.read t'.out a = Memory.read t.out a) ∨
        (Memory.read t.out a = Memory.read s.out a ∧ Memory.read t'.out a = Memory.read m a)

/-- The model's own stop (log entry 6): a FEED that would store at an index that does not exist (R30) stops; only
states that break R108 get there. -/
def Obligations.StoreOutsideBufferStops : Prop :=
  ∀ (i : Instr) (b : Byte) (s : State), fedByte i = some b → ready s = false →
    Config.C < s.writePosition.toNat → b ≠ 0xDB → exec i s = .fault (.bufIndexOutOfRange s.writePosition.toNat)
end

