-- ==== Sys2Proof/Laws/Config.lean ====
section
/-! SUPPORT. The widths of the word types are the parameters of R5, and reset memory is in canonical form. -/

namespace Sys2Proof

theorem Config.operand_width : Operand = BitVec Config.IDXW := rfl

theorem Config.ptr_width : Ptr = BitVec Config.PTRW := rfl

/-- `PTRW` is the least width that holds every value `0 .. C` (R5, R11). -/
theorem Config.ptrw_least : 2 ^ (Config.PTRW - 1) < Config.C + 1 ∧ Config.C + 1 ≤ 2 ^ Config.PTRW := by decide

theorem Machine.reset_memory_wf :
    Machine.Memory.wf Machine.State.reset.buf = true ∧ Machine.Memory.wf Machine.State.reset.out = true :=
  ⟨rfl, rfl⟩

end Sys2Proof
end

