-- ==== Sys2Proof/Laws/Decode.lean ====
section
/-! SUPPORT. The fields of a packed CMD word are the fields it was packed from. -/

namespace Sys2Proof

@[simp] theorem opField_packCmd (op : Byte) (a b c : Operand) : opField (packCmd op a b c) = op := by
  apply BitVec.eq_of_getLsbD_eq
  intro i hi
  simp only [opField, packCmd, BitVec.getLsbD_extractLsb', BitVec.getLsbD_append]
  simp [hi, show ¬ 48 + i < 16 by omega, show ¬ 48 + i - 16 < 16 by omega, show ¬ 48 + i - 16 - 16 < 16 by omega,
    show 48 + i - 16 - 16 - 16 = i by omega]

@[simp] theorem aField_packCmd (op : Byte) (a b c : Operand) : aField (packCmd op a b c) = a := by
  apply BitVec.eq_of_getLsbD_eq
  intro i hi
  simp only [aField, packCmd, BitVec.getLsbD_extractLsb', BitVec.getLsbD_append]
  simp [hi, show ¬ 32 + i < 16 by omega, show ¬ 32 + i - 16 < 16 by omega, show 32 + i - 16 - 16 = i by omega]

@[simp] theorem b16Field_packCmd (op : Byte) (a b c : Operand) : b16Field (packCmd op a b c) = b := by
  apply BitVec.eq_of_getLsbD_eq
  intro i hi
  simp only [b16Field, packCmd, BitVec.getLsbD_extractLsb', BitVec.getLsbD_append]
  simp [hi, show ¬ 16 + i < 16 by omega, show 16 + i - 16 = i by omega]

@[simp] theorem cField_packCmd (op : Byte) (a b c : Operand) : cField (packCmd op a b c) = c := by
  apply BitVec.eq_of_getLsbD_eq
  intro i hi
  simp only [cField, packCmd, BitVec.getLsbD_extractLsb', BitVec.getLsbD_append]
  simp [hi]

@[simp] theorem byteField_packCmd (op : Byte) (a b : Operand) (v : Byte) :
    byteField (packCmd op a b (v.setWidth 16)) = v := by
  apply BitVec.eq_of_getLsbD_eq
  intro i hi
  simp only [byteField, packCmd, BitVec.getLsbD_extractLsb', BitVec.getLsbD_append]
  simp [hi, show i < 16 by omega]

end Sys2Proof
end

