-- ==== Sys2Proof/Laws/Memory.lean ====
section
/-! SUPPORT. The laws of a byte space: read after write, and the canonical form every write keeps. -/

namespace Sys2Proof.Machine

@[simp] theorem Memory.read_nil (a : Nat) : Memory.read [] a = none := rfl

/-- A write is read back at its address and leaves every other address alone (R30). -/
theorem Memory.read_write (m : Memory) (a x : Nat) (v : Byte) :
    Memory.read (Memory.write m a v) x = if x = a then some v else Memory.read m x := by
  induction m with
  | nil => simp [Memory.write, Memory.read]
  | cons c rest ih =>
    obtain ⟨k, b⟩ := c
    simp only [Memory.write]
    split
    · simp only [Memory.read]
    · split
      · subst a; simp only [Memory.read]; split <;> rfl
      · simp only [Memory.read, ih]
        split
        · subst x; rw [if_neg (by omega)]
        · rfl

@[simp] theorem Memory.read_write_self (m : Memory) (a : Nat) (v : Byte) :
    Memory.read (Memory.write m a v) a = some v := by simp [Memory.read_write]

theorem Memory.read_write_of_ne (m : Memory) {a x : Nat} (v : Byte) (h : x ≠ a) :
    Memory.read (Memory.write m a v) x = Memory.read m x := by simp [Memory.read_write, h]

/-- Bytes written from `a` upward are read back there, and nothing else changes (R41). -/
theorem Memory.read_writeList (vs : List Byte) (m : Memory) (a x : Nat) :
    Memory.read (Memory.writeList m a vs) x =
      if a ≤ x ∧ x < a + vs.length then vs[x - a]? else Memory.read m x := by
  induction vs generalizing m a with
  | nil => simp only [Memory.writeList, List.length_nil]; rw [if_neg (by omega)]
  | cons v vs ih =>
    simp only [Memory.writeList, ih, Memory.read_write, List.length_cons]
    by_cases hx : x = a
    · subst x; rw [if_neg (by omega), if_pos rfl, if_pos (by omega)]; simp
    · by_cases hin : a + 1 ≤ x ∧ x < a + 1 + vs.length
      · rw [if_pos hin, if_pos (by omega), show x - a = (x - (a + 1)) + 1 by omega, List.getElem?_cons_succ]
      · rw [if_neg hin, if_neg hx, if_neg (by omega)]

/-- A property of every address listed after a write: it held of the addresses listed before, and of the new one. -/
theorem Memory.all_write (p : Nat → Bool) (m : Memory) (a : Nat) (v : Byte)
    (hm : m.all (fun c => p c.1) = true) (ha : p a = true) :
    (Memory.write m a v).all (fun c => p c.1) = true := by
  induction m with
  | nil => simpa [Memory.write] using ha
  | cons c rest ih =>
    obtain ⟨k, b⟩ := c
    simp only [List.all_cons, Bool.and_eq_true] at hm
    simp only [Memory.write]
    split
    · simp only [List.all_cons, Bool.and_eq_true]; exact ⟨ha, hm⟩
    · split
      · simp only [List.all_cons, Bool.and_eq_true]; exact ⟨ha, hm.2⟩
      · simp only [List.all_cons, Bool.and_eq_true]; exact ⟨hm.1, ih hm.2⟩

/-- A write keeps the canonical form. -/
theorem Memory.wf_write (m : Memory) (a : Nat) (v : Byte) (h : Memory.wf m = true) :
    Memory.wf (Memory.write m a v) = true := by
  induction m with
  | nil => rfl
  | cons c rest ih =>
    obtain ⟨k, b⟩ := c
    simp only [Memory.wf, Bool.and_eq_true] at h
    simp only [Memory.write]
    split
    · next hlt =>
      simp only [Memory.wf, Bool.and_eq_true, List.all_cons, decide_eq_true_eq]
      refine ⟨⟨hlt, ?_⟩, h⟩
      have h1 := h.1
      simp only [List.all_eq_true, decide_eq_true_eq] at h1 ⊢
      exact fun c hc => Nat.lt_trans hlt (h1 c hc)
    · split
      · next heq => subst a; simp only [Memory.wf, Bool.and_eq_true]; exact h
      · next hlt hne =>
        simp only [Memory.wf, Bool.and_eq_true]
        exact ⟨Memory.all_write (fun n => decide (k < n)) rest a v h.1 (by simp; omega), ih h.2⟩

/-- Writes of a list keep the canonical form. -/
theorem Memory.wf_writeList (vs : List Byte) (m : Memory) (a : Nat) (h : Memory.wf m = true) :
    Memory.wf (Memory.writeList m a vs) = true := by
  induction vs generalizing m a with
  | nil => exact h
  | cons v vs ih => exact ih _ _ (Memory.wf_write m a v h)

/-- A write below the bound keeps every address below it. -/
theorem Memory.below_write (n : Nat) (m : Memory) (a : Nat) (v : Byte) (h : Memory.below n m = true) (ha : a < n) :
    Memory.below n (Memory.write m a v) = true :=
  Memory.all_write (fun k => decide (k < n)) m a v h (by simpa using ha)

/-- Writes of a list that ends below the bound keep every address below it. -/
theorem Memory.below_writeList (n : Nat) (vs : List Byte) (m : Memory) (a : Nat) (h : Memory.below n m = true)
    (ha : a + vs.length ≤ n) : Memory.below n (Memory.writeList m a vs) = true := by
  induction vs generalizing m a with
  | nil => exact h
  | cons v vs ih =>
    simp only [List.length_cons] at ha
    exact ih _ _ (Memory.below_write n m a v h (by omega)) (by omega)

end Sys2Proof.Machine
end

