-- ==== Sys2Proof/Laws/State.lean ====
section
/-! SUPPORT. One lemma per field per update of the state, so that no proof unfolds a record update. -/

namespace Sys2Proof.Machine

/-! ### clearBlock -/

@[simp] theorem clearBlock_writePosition (s : State) : (clearBlock s).writePosition = 0 := rfl
@[simp] theorem clearBlock_frameLength (s : State) : (clearBlock s).frameLength = 0 := rfl
@[simp] theorem clearBlock_escapePending (s : State) : (clearBlock s).escapePending = false := rfl
@[simp] theorem clearBlock_buf (s : State) : (clearBlock s).buf = s.buf := rfl
@[simp] theorem clearBlock_out (s : State) : (clearBlock s).out = s.out := rfl
@[simp] theorem clearBlock_resetDraw (s : State) : (clearBlock s).resetDraw = s.resetDraw := rfl
@[simp] theorem clearBlock_result (s : State) : (clearBlock s).result = s.result := rfl
@[simp] theorem clearBlock_requests (s : State) : (clearBlock s).requests = s.requests := rfl

/-! ### resetBlock -/

@[simp] theorem resetBlock_writePosition (s : State) : (resetBlock s).writePosition = 0 := rfl
@[simp] theorem resetBlock_frameLength (s : State) : (resetBlock s).frameLength = 0 := rfl
@[simp] theorem resetBlock_escapePending (s : State) : (resetBlock s).escapePending = false := rfl
@[simp] theorem resetBlock_buf (s : State) : (resetBlock s).buf = [] := rfl
@[simp] theorem resetBlock_out (s : State) : (resetBlock s).out = s.out := rfl
@[simp] theorem resetBlock_resetDraw (s : State) : (resetBlock s).resetDraw = s.resetDraw + 1 := rfl
@[simp] theorem resetBlock_result (s : State) : (resetBlock s).result = .none := rfl
@[simp] theorem resetBlock_requests (s : State) : (resetBlock s).requests = s.requests := rfl

/-! ### setEscape -/

@[simp] theorem setEscape_writePosition (e : Bool) (s : State) : (setEscape e s).writePosition = s.writePosition := rfl
@[simp] theorem setEscape_frameLength (e : Bool) (s : State) : (setEscape e s).frameLength = s.frameLength := rfl
@[simp] theorem setEscape_escapePending (e : Bool) (s : State) : (setEscape e s).escapePending = e := rfl
@[simp] theorem setEscape_buf (e : Bool) (s : State) : (setEscape e s).buf = s.buf := rfl
@[simp] theorem setEscape_out (e : Bool) (s : State) : (setEscape e s).out = s.out := rfl
@[simp] theorem setEscape_resetDraw (e : Bool) (s : State) : (setEscape e s).resetDraw = s.resetDraw := rfl
@[simp] theorem setEscape_result (e : Bool) (s : State) : (setEscape e s).result = s.result := rfl
@[simp] theorem setEscape_requests (e : Bool) (s : State) : (setEscape e s).requests = s.requests := rfl

/-! ### pushByte -/

@[simp] theorem pushByte_writePosition (v : Byte) (s : State) : (pushByte v s).writePosition = s.writePosition + 1 := rfl
@[simp] theorem pushByte_frameLength (v : Byte) (s : State) : (pushByte v s).frameLength = s.frameLength := rfl
@[simp] theorem pushByte_escapePending (v : Byte) (s : State) : (pushByte v s).escapePending = s.escapePending := rfl
@[simp] theorem pushByte_buf (v : Byte) (s : State) : (pushByte v s).buf = Memory.write s.buf s.writePosition.toNat v := rfl
@[simp] theorem pushByte_out (v : Byte) (s : State) : (pushByte v s).out = s.out := rfl
@[simp] theorem pushByte_resetDraw (v : Byte) (s : State) : (pushByte v s).resetDraw = s.resetDraw := rfl
@[simp] theorem pushByte_result (v : Byte) (s : State) : (pushByte v s).result = s.result := rfl
@[simp] theorem pushByte_requests (v : Byte) (s : State) : (pushByte v s).requests = s.requests := rfl

/-! ### markComplete -/

@[simp] theorem markComplete_writePosition (s : State) : (markComplete s).writePosition = s.writePosition := rfl
@[simp] theorem markComplete_frameLength (s : State) : (markComplete s).frameLength = s.writePosition := rfl
@[simp] theorem markComplete_escapePending (s : State) : (markComplete s).escapePending = s.escapePending := rfl
@[simp] theorem markComplete_buf (s : State) : (markComplete s).buf = s.buf := rfl
@[simp] theorem markComplete_out (s : State) : (markComplete s).out = s.out := rfl
@[simp] theorem markComplete_resetDraw (s : State) : (markComplete s).resetDraw = s.resetDraw := rfl
@[simp] theorem markComplete_result (s : State) : (markComplete s).result = s.result := rfl
@[simp] theorem markComplete_requests (s : State) : (markComplete s).requests = s.requests := rfl

/-! ### deliver -/

@[simp] theorem deliver_writePosition (d : Nat) (bs : List Byte) (s : State) : (deliver d bs s).writePosition = s.writePosition := rfl
@[simp] theorem deliver_frameLength (d : Nat) (bs : List Byte) (s : State) : (deliver d bs s).frameLength = s.frameLength := rfl
@[simp] theorem deliver_escapePending (d : Nat) (bs : List Byte) (s : State) : (deliver d bs s).escapePending = s.escapePending := rfl
@[simp] theorem deliver_buf (d : Nat) (bs : List Byte) (s : State) : (deliver d bs s).buf = s.buf := rfl
@[simp] theorem deliver_out (d : Nat) (bs : List Byte) (s : State) : (deliver d bs s).out = Memory.writeList s.out d bs := rfl
@[simp] theorem deliver_resetDraw (d : Nat) (bs : List Byte) (s : State) : (deliver d bs s).resetDraw = s.resetDraw := rfl
@[simp] theorem deliver_result (d : Nat) (bs : List Byte) (s : State) : (deliver d bs s).result = s.result := rfl
@[simp] theorem deliver_requests (d : Nat) (bs : List Byte) (s : State) : (deliver d bs s).requests = s.requests := rfl

/-! ### setResult -/

@[simp] theorem setResult_writePosition (r : Result) (s : State) : (setResult r s).writePosition = s.writePosition := rfl
@[simp] theorem setResult_frameLength (r : Result) (s : State) : (setResult r s).frameLength = s.frameLength := rfl
@[simp] theorem setResult_escapePending (r : Result) (s : State) : (setResult r s).escapePending = s.escapePending := rfl
@[simp] theorem setResult_buf (r : Result) (s : State) : (setResult r s).buf = s.buf := rfl
@[simp] theorem setResult_out (r : Result) (s : State) : (setResult r s).out = s.out := rfl
@[simp] theorem setResult_resetDraw (r : Result) (s : State) : (setResult r s).resetDraw = s.resetDraw := rfl
@[simp] theorem setResult_result (r : Result) (s : State) : (setResult r s).result = r := rfl
@[simp] theorem setResult_requests (r : Result) (s : State) : (setResult r s).requests = s.requests := rfl

/-! ### pushRequest -/

@[simp] theorem pushRequest_writePosition (r : Request) (s : State) : (pushRequest r s).writePosition = s.writePosition := rfl
@[simp] theorem pushRequest_frameLength (r : Request) (s : State) : (pushRequest r s).frameLength = s.frameLength := rfl
@[simp] theorem pushRequest_escapePending (r : Request) (s : State) : (pushRequest r s).escapePending = s.escapePending := rfl
@[simp] theorem pushRequest_buf (r : Request) (s : State) : (pushRequest r s).buf = s.buf := rfl
@[simp] theorem pushRequest_out (r : Request) (s : State) : (pushRequest r s).out = s.out := rfl
@[simp] theorem pushRequest_resetDraw (r : Request) (s : State) : (pushRequest r s).resetDraw = s.resetDraw := rfl
@[simp] theorem pushRequest_result (r : Request) (s : State) : (pushRequest r s).result = s.result := rfl
@[simp] theorem pushRequest_requests (r : Request) (s : State) : (pushRequest r s).requests = r :: s.requests := rfl

end Sys2Proof.Machine
end

