-- ==== Sys2Proof/Laws/Ops.lean ====
section
/-! SUPPORT. One law per shared operation: the flags, the reads of BUF, release, overflow reset and guarded store. -/

namespace Sys2Proof.Machine

/-! ### Flags -/

theorem ready_iff (s : State) : ready s = true ↔ 0 < s.frameLength.toNat ∧ s.writePosition = s.frameLength := by
  simp [ready]

theorem ready_eq_false_iff (s : State) :
    ready s = false ↔ ¬ (0 < s.frameLength.toNat ∧ s.writePosition = s.frameLength) := by
  rw [← ready_iff, Bool.not_eq_true]

theorem idle_iff (s : State) : idle s = true ↔ s.writePosition = 0 := by simp [idle]

theorem ptr_eq_zero_iff (p : Ptr) : p = 0 ↔ p.toNat = 0 := by
  rw [← BitVec.toNat_inj]; rfl

theorem idle_iff_toNat (s : State) : idle s = true ↔ s.writePosition.toNat = 0 := by
  rw [idle_iff, ptr_eq_zero_iff]

theorem atCapacity_iff (s : State) : atCapacity s = true ↔ s.writePosition.toNat = Config.C := by
  simp [atCapacity]

theorem completes_iff (b : Byte) (s : State) :
    completes b s = true ↔ b = Config.END ∧ Config.MINLEN < s.writePosition.toNat := by
  simp [completes]

/-- An Idle block holds no complete frame. -/
theorem not_ready_of_idle {s : State} (h : s.writePosition = 0) : ready s = false := by
  rw [ready_eq_false_iff]
  rintro ⟨hpos, heq⟩
  rw [← heq, h] at hpos
  exact absurd hpos (by decide)

@[simp] theorem ready_clearBlock (s : State) : ready (clearBlock s) = false := not_ready_of_idle rfl

@[simp] theorem idle_clearBlock (s : State) : idle (clearBlock s) = true := rfl

/-- The flags depend on the registers alone. -/
theorem ready_congr {s t : State} (hw : t.writePosition = s.writePosition) (hl : t.frameLength = s.frameLength) :
    ready t = ready s := by simp only [ready, hw, hl]

theorem idle_congr {s t : State} (hw : t.writePosition = s.writePosition) : idle t = idle s := by
  simp only [idle, hw]

theorem mode_congr {s t : State} (hw : t.writePosition = s.writePosition) (hl : t.frameLength = s.frameLength) :
    mode t = mode s := by simp only [mode, ready_congr hw hl, idle_congr hw]

@[simp] theorem ready_setResult (r : Result) (s : State) : ready (setResult r s) = ready s := rfl
@[simp] theorem ready_setEscape (e : Bool) (s : State) : ready (setEscape e s) = ready s := rfl
@[simp] theorem ready_deliver (d : Nat) (bs : List Byte) (s : State) : ready (deliver d bs s) = ready s := rfl
@[simp] theorem idle_setResult (r : Result) (s : State) : idle (setResult r s) = idle s := rfl
@[simp] theorem idle_setEscape (e : Bool) (s : State) : idle (setEscape e s) = idle s := rfl
@[simp] theorem atCapacity_setEscape (e : Bool) (s : State) : atCapacity (setEscape e s) = atCapacity s := rfl

/-! ### Reads of BUF -/

/-- The bytes of BUF depend on the stored cells and the draw alone. -/
theorem bufByte_congr {s t : State} (hb : t.buf = s.buf) (hd : t.resetDraw = s.resetDraw) (i : Nat) :
    bufByte t i = bufByte s i := by simp only [bufByte, hb, hd]

@[simp] theorem bufByte_setResult (r : Result) (s : State) (i : Nat) : bufByte (setResult r s) i = bufByte s i := rfl
@[simp] theorem bufByte_setEscape (e : Bool) (s : State) (i : Nat) : bufByte (setEscape e s) i = bufByte s i := rfl
@[simp] theorem bufByte_clearBlock (s : State) (i : Nat) : bufByte (clearBlock s) i = bufByte s i := rfl
@[simp] theorem bufByte_markComplete (s : State) (i : Nat) : bufByte (markComplete s) i = bufByte s i := rfl
@[simp] theorem bufByte_deliver (d : Nat) (bs : List Byte) (s : State) (i : Nat) :
    bufByte (deliver d bs s) i = bufByte s i := rfl

/-- After a reset every byte of BUF is the free value of the new draw (R23). -/
@[simp] theorem bufByte_resetBlock (s : State) (i : Nat) :
    bufByte (resetBlock s) i = Config.resetByte (s.resetDraw + 1) i := rfl

/-- A store changes the byte at `write_position` and no other (R30, R31). -/
theorem bufByte_pushByte (v : Byte) (s : State) (i : Nat) :
    bufByte (pushByte v s) i = if i = s.writePosition.toNat then v else bufByte s i := by
  simp only [bufByte, pushByte_buf, pushByte_resetDraw, Memory.read_write]
  split <;> rfl

theorem readBuf_ok (s : State) {i : Nat} (h : i < Config.C) : readBuf s i = .ok (bufByte s i) := if_pos h

/-- A range inside BUF is read whole. -/
theorem readRange_ok (s : State) (i n : Nat) (h : i + n ≤ Config.C) :
    readRange s i n = .ok ((List.range n).map fun k => bufByte s (i + k)) := by
  induction n generalizing i with
  | zero => rfl
  | succ n ih =>
    simp only [readRange, readBuf_ok s (show i < Config.C by omega), ih (i + 1) (by omega)]
    simp [List.range_succ_eq_map, Function.comp_def, Nat.add_assoc, Nat.add_comm 1]

/-- A range that is read has the length asked for, and its bytes are those of BUF. -/
theorem readRange_eq_ok {s : State} {i n : Nat} {bs : List Byte} (h : readRange s i n = .ok bs) :
    bs.length = n ∧ ∀ k, k < n → bs[k]? = some (bufByte s (i + k)) := by
  induction n generalizing i bs with
  | zero => simp only [readRange, Except.ok.injEq] at h; subst h; simp
  | succ n ih =>
    simp only [readRange, readBuf] at h
    split at h
    · cases h
    · next b hb =>
      split at hb
      · cases hb
        split at h
        · cases h
        · next bs' hbs =>
          cases h
          obtain ⟨hl, hr⟩ := ih hbs
          refine ⟨by simp [hl], fun k hk => ?_⟩
          cases k with
          | zero => simp
          | succ k => rw [List.getElem?_cons_succ, hr k (by omega), Nat.add_assoc, Nat.add_comm 1]
      · cases hb

/-- The terminator test is the test that the byte is odd (R123). -/
theorem isTerminator_iff (b : Byte) : isTerminator b = true ↔ b.toNat % 2 = 1 := by
  simp [isTerminator, BitVec.getLsbD, Nat.testBit_zero]

/-- The scan inside BUF: either it finds the first terminator, or there is none and it takes all (R93). -/
theorem scanField_ok (s : State) (i n : Nat) (h : i + n ≤ Config.C) :
    (∃ k, k < n ∧ scanField s i n = .ok (k + 1, true) ∧ isTerminator (bufByte s (i + k)) = true ∧
      ∀ j, j < k → isTerminator (bufByte s (i + j)) = false) ∨
    (scanField s i n = .ok (n, false) ∧ ∀ j, j < n → isTerminator (bufByte s (i + j)) = false) := by
  induction n generalizing i with
  | zero => right; exact ⟨rfl, fun j hj => absurd hj (Nat.not_lt_zero j)⟩
  | succ n ih =>
    simp only [scanField, readBuf_ok s (show i < Config.C by omega)]
    by_cases ht : isTerminator (bufByte s i) = true
    · left
      exact ⟨0, by omega, by simp [ht], by simpa using ht, fun j hj => absurd hj (Nat.not_lt_zero j)⟩
    · have hf : isTerminator (bufByte s i) = false := by simpa using ht
      have hnext : ∀ (m : Nat), (∀ j, j < m → isTerminator (bufByte s (i + 1 + j)) = false) →
          ∀ j, j < m + 1 → isTerminator (bufByte s (i + j)) = false := by
        intro m hm j hj
        cases j with
        | zero => simpa using hf
        | succ j => have := hm j (by omega); rwa [Nat.add_assoc, Nat.add_comm 1] at this
      rcases ih (i + 1) (by omega) with ⟨k, hk, he, hkt, hkj⟩ | ⟨he, hj⟩
      · left
        refine ⟨k + 1, by omega, by simp [hf, he], ?_, hnext k hkj⟩
        rwa [Nat.add_assoc, Nat.add_comm 1] at hkt
      · right
        exact ⟨by simp [hf, he], hnext n hj⟩

/-! ### Release, overflow reset, guarded store -/

theorem release_of_ready {s : State} (h : ready s = true) : release s = clearBlock s := if_pos h

theorem release_of_not_ready {s : State} (h : ready s = false) : release s = s := by simp [release, h]

@[simp] theorem ready_release (s : State) : ready (release s) = false := by
  cases h : ready s
  · rw [release_of_not_ready h, h]
  · rw [release_of_ready h, ready_clearBlock]

/-- A release touches the three registers alone (R20, R68). -/
@[simp] theorem release_buf (s : State) : (release s).buf = s.buf := by unfold release; split <;> rfl
@[simp] theorem release_out (s : State) : (release s).out = s.out := by unfold release; split <;> rfl
@[simp] theorem release_resetDraw (s : State) : (release s).resetDraw = s.resetDraw := by
  unfold release; split <;> rfl
@[simp] theorem release_requests (s : State) : (release s).requests = s.requests := by
  unfold release; split <;> rfl
@[simp] theorem bufByte_release (s : State) (i : Nat) : bufByte (release s) i = bufByte s i :=
  bufByte_congr (release_buf s) (release_resetDraw s) i

theorem makeRoom_of_ne {s : State} (h : s.writePosition.toNat ≠ Config.C) : makeRoom s = s := by
  simp [makeRoom, atCapacity, h]

theorem makeRoom_of_full {s : State} (h : s.writePosition.toNat = Config.C) : makeRoom s = clearBlock s := by
  simp [makeRoom, atCapacity, h]

@[simp] theorem makeRoom_buf (s : State) : (makeRoom s).buf = s.buf := by unfold makeRoom; split <;> rfl
@[simp] theorem makeRoom_out (s : State) : (makeRoom s).out = s.out := by unfold makeRoom; split <;> rfl
@[simp] theorem makeRoom_resetDraw (s : State) : (makeRoom s).resetDraw = s.resetDraw := by
  unfold makeRoom; split <;> rfl
@[simp] theorem makeRoom_requests (s : State) : (makeRoom s).requests = s.requests := by
  unfold makeRoom; split <;> rfl
@[simp] theorem bufByte_makeRoom (s : State) (i : Nat) : bufByte (makeRoom s) i = bufByte s i :=
  bufByte_congr (makeRoom_buf s) (makeRoom_resetDraw s) i

theorem appendIndex_of_ne {s : State} (h : s.writePosition.toNat ≠ Config.C) :
    appendIndex s = s.writePosition.toNat := by rw [appendIndex, makeRoom_of_ne h]

theorem appendIndex_of_full {s : State} (h : s.writePosition.toNat = Config.C) : appendIndex s = 0 := by
  rw [appendIndex, makeRoom_of_full h]; rfl

/-- A store fits in every state with `write_position <= C` (R76, R108). -/
theorem appendIndex_lt {s : State} (h : s.writePosition.toNat ≤ Config.C) : appendIndex s < Config.C := by
  by_cases hc : s.writePosition.toNat = Config.C
  · rw [appendIndex_of_full hc]; decide
  · rw [appendIndex_of_ne hc]; omega

/-- The guarded store inside BUF. -/
theorem appendByte_ok (v : Byte) {s : State} (h : appendIndex s < Config.C) :
    appendByte v s = .ok (pushByte v (makeRoom s), atCapacity s) := if_pos h

/-- All that the guarded store can do. -/
theorem appendByte_eq_ok {v : Byte} {s u : State} {ovf : Bool} (h : appendByte v s = .ok (u, ovf)) :
    appendIndex s < Config.C ∧ u = pushByte v (makeRoom s) ∧ ovf = atCapacity s := by
  unfold appendByte at h
  split at h
  · next hlt => cases h; exact ⟨hlt, rfl, rfl⟩
  · cases h

/-- The pointer register does not wrap where a store happens (R119). -/
theorem ptr_succ_toNat {p : Ptr} (h : p.toNat < Config.C) : (p + 1).toNat = p.toNat + 1 := by
  have h' : p.toNat < 512 := h
  rw [BitVec.toNat_add]
  show (p.toNat + 1) % 1024 = p.toNat + 1
  omega

theorem pushByte_writePosition_toNat (v : Byte) {s : State} (h : s.writePosition.toNat < Config.C) :
    (pushByte v s).writePosition.toNat = s.writePosition.toNat + 1 := ptr_succ_toNat h

end Sys2Proof.Machine
end

