-- ==== Sys2Proof/Laws/Feed.lean ====
section
/-! SUPPORT. What a FEED can do, said once: an equation for each way it ends, and the inversion of all of them. -/

namespace Sys2Proof.Machine

/-- Every spelling of FEED runs the one shared operation. -/
theorem exec_of_fedByte {i : Instr} {b : Byte} (h : fedByte i = some b) (s : State) : exec i s = feedByte b s := by
  cases i <;> simp only [fedByte, Option.some.injEq, reduceCtorEq] at h <;> subst h <;> rfl

/-! ### Nothing reads the result field -/

theorem makeRoom_setResult (r : Result) (s : State) : makeRoom (setResult r s) = setResult r (makeRoom s) := by
  unfold makeRoom
  rw [show atCapacity (setResult r s) = atCapacity s from rfl]
  split <;> rfl

theorem release_setResult (r : Result) (s : State) : release (setResult r s) = setResult r (release s) := by
  unfold release
  rw [ready_setResult]
  split <;> rfl

theorem appendByte_setResult (v : Byte) (r : Result) (s : State) :
    appendByte v (setResult r s) = (appendByte v s).map fun p => (setResult r p.1, p.2) := by
  have hi : appendIndex (setResult r s) = appendIndex s := by
    rw [appendIndex, makeRoom_setResult]; rfl
  unfold appendByte
  rw [hi, makeRoom_setResult]
  by_cases h : appendIndex s < Config.C
  · rw [if_pos h, if_pos h]; rfl
  · rw [if_neg h, if_neg h]; rfl

theorem feedEscaped_setResult (b : Byte) (r : Result) (s : State) :
    feedEscaped b (setResult r s) = feedEscaped b s := by
  unfold feedEscaped
  rw [show setEscape false (setResult r s) = setResult r (setEscape false s) from rfl, appendByte_setResult]
  cases appendByte (escapedLiteral b) (setEscape false s) <;> rfl

theorem feedOrdinary_setResult (b : Byte) (r : Result) (s : State) :
    feedOrdinary b (setResult r s) = feedOrdinary b s := by
  unfold feedOrdinary
  rw [show setEscape false (setResult r s) = setResult r (setEscape false s) from rfl, appendByte_setResult]
  cases appendByte b (setEscape false s) with
  | error f => rfl
  | ok p =>
    simp only [Except.map]
    rw [show completes b (setResult r p.1) = completes b p.1 from rfl]
    cases completes b p.1 <;> rfl

theorem feedByte_setResult (b : Byte) (r : Result) (s : State) : feedByte b (setResult r s) = feedByte b s := by
  unfold feedByte
  rw [release_setResult]
  simp only [feedReleased, idle_setResult, setResult_escapePending, feedEscaped_setResult, feedOrdinary_setResult]
  rfl

theorem readRange_setResult (r : Result) (s : State) (i n : Nat) :
    readRange (setResult r s) i n = readRange s i n := by
  induction n generalizing i with
  | zero => rfl
  | succ n ih => simp only [readRange, readBuf, bufByte_setResult, ih]

theorem scanField_setResult (r : Result) (s : State) (i n : Nat) :
    scanField (setResult r s) i n = scanField s i n := by
  induction n generalizing i with
  | zero => rfl
  | succ n ih => simp only [scanField, readBuf, bufByte_setResult, ih]

theorem copyOut_setResult (r : Result) (s : State) (src n dst count : Nat) :
    copyOut (setResult r s) src n dst count = copyOut s src n dst count := by
  unfold copyOut
  rw [readRange_setResult]
  cases readRange s src n <;> rfl

theorem exec_setResult (i : Instr) (r : Result) (s : State) : exec i (setResult r s) = exec i s := by
  cases hfed : fedByte i with
  | some b => rw [exec_of_fedByte hfed, exec_of_fedByte hfed, feedByte_setResult]
  | none =>
    cases i <;> simp only [fedByte, reduceCtorEq] at hfed
    · rfl
    · simp only [exec, execXtel, copyOut_setResult, ready_setResult, setResult_frameLength]; rfl
    · simp only [exec, execXaddr, copyOut_setResult, scanField_setResult, setResult_writePosition]; rfl
    · rfl
    · rfl

/-! ### How a FEED ends, after the release -/

/-- Step 1: discarded. -/
theorem feedReleased_discard {b : Byte} {s : State} (hi : idle s = true) (hb : b ≠ Config.START) :
    feedReleased b s = .next (setResult (.fed false false) s) := by
  simp [feedReleased, hi, hb, answer]

/-- Step 2: the introducer. -/
theorem feedReleased_esc {s : State} (hi : idle s = false) :
    feedReleased Config.ESC s = .next (setResult (.fed false false) (setEscape true s)) := by
  simp [feedReleased, hi, answer]

/-- Steps 3 and 4: an escaped write. -/
theorem feedReleased_escaped {b : Byte} {s : State} (hi : idle s = false) (he : s.escapePending = true)
    (hc : isEscapeCode b = true) (hs : appendIndex (setEscape false s) < Config.C) :
    feedReleased b s = .next (setResult (.fed false (atCapacity s))
      (pushByte (escapedLiteral b) (makeRoom (setEscape false s)))) := by
  have hb : b ≠ Config.ESC := by rintro rfl; exact absurd hc (by decide)
  simp [feedReleased, hi, hb, he, hc, feedEscaped, appendByte_ok _ hs, answer]

/-- The byte reaches step 5: it is not discarded, no introducer, no escaped code. -/
def isOrdinary (b : Byte) (s : State) : Prop :=
  (idle s = true → b = Config.START) ∧ b ≠ Config.ESC ∧ (s.escapePending = true → isEscapeCode b = false)

/-- Steps 5 and 6. -/
theorem feedReleased_ordinary {b : Byte} {s : State} (ho : isOrdinary b s)
    (hs : appendIndex (setEscape false s) < Config.C) :
    feedReleased b s =
      if completes b (pushByte b (makeRoom (setEscape false s))) = true then
        .next (setResult (.fed true (atCapacity s))
          (markComplete (pushByte b (makeRoom (setEscape false s)))))
      else
        .next (setResult (.fed false (atCapacity s)) (pushByte b (makeRoom (setEscape false s)))) := by
  obtain ⟨h1, h2, h3⟩ := ho
  have hd : (idle s && b != Config.START) = false := by
    cases hi : idle s
    · rfl
    · simp [h1 hi]
  have hc : (s.escapePending && isEscapeCode b) = false := by
    cases he : s.escapePending
    · rfl
    · simp [h3 he]
  simp [feedReleased, hd, h2, hc, feedOrdinary, appendByte_ok _ hs, answer]

/-- All that a FEED can do once the release is done, if it answers a next state. -/
theorem feedReleased_cases {b : Byte} {s t : State} (h : feedReleased b s = .next t) :
    (idle s = true ∧ b ≠ Config.START ∧ t = setResult (.fed false false) s) ∨
    (idle s = false ∧ b = Config.ESC ∧ t = setResult (.fed false false) (setEscape true s)) ∨
    (idle s = false ∧ s.escapePending = true ∧ isEscapeCode b = true ∧
      appendIndex (setEscape false s) < Config.C ∧
      t = setResult (.fed false (atCapacity s)) (pushByte (escapedLiteral b) (makeRoom (setEscape false s)))) ∨
    (isOrdinary b s ∧ appendIndex (setEscape false s) < Config.C ∧
      completes b (pushByte b (makeRoom (setEscape false s))) = true ∧
      t = setResult (.fed true (atCapacity s)) (markComplete (pushByte b (makeRoom (setEscape false s))))) ∨
    (isOrdinary b s ∧ appendIndex (setEscape false s) < Config.C ∧
      completes b (pushByte b (makeRoom (setEscape false s))) = false ∧
      t = setResult (.fed false (atCapacity s)) (pushByte b (makeRoom (setEscape false s)))) := by
  by_cases hd : idle s = true ∧ b ≠ Config.START
  · rw [feedReleased_discard hd.1 hd.2] at h
    exact .inl ⟨hd.1, hd.2, by cases h; rfl⟩
  by_cases hb : b = Config.ESC
  · have hi : idle s = false := by
      cases hi : idle s
      · rfl
      · exact absurd ⟨hi, by rw [hb]; decide⟩ hd
    rw [hb, feedReleased_esc hi] at h
    exact .inr (.inl ⟨hi, hb, by cases h; rfl⟩)
  by_cases hs : appendIndex (setEscape false s) < Config.C
  · by_cases hc : s.escapePending = true ∧ isEscapeCode b = true
    · have hi : idle s = false := by
        cases hi : idle s
        · rfl
        · refine absurd ⟨hi, ?_⟩ hd
          rintro rfl
          exact absurd hc.2 (by decide)
      rw [feedReleased_escaped hi hc.1 hc.2 hs] at h
      exact .inr (.inr (.inl ⟨hi, hc.1, hc.2, hs, by cases h; rfl⟩))
    · have ho : isOrdinary b s :=
        ⟨fun hi => Classical.byContradiction fun hn => hd ⟨hi, hn⟩, hb, fun he => by
          cases hcode : isEscapeCode b
          · rfl
          · exact absurd ⟨he, hcode⟩ hc⟩
      rw [feedReleased_ordinary ho hs] at h
      split at h
      · next hcomp => exact .inr (.inr (.inr (.inl ⟨ho, hs, hcomp, by cases h; rfl⟩)))
      · next hcomp => exact .inr (.inr (.inr (.inr ⟨ho, hs, by simpa using hcomp, by cases h; rfl⟩)))
  · exfalso
    have hd' : (idle s && b != Config.START) = false := by
      cases hi : idle s
      · rfl
      · simpa [hi] using hd
    have herr : ∀ v, appendByte v (setEscape false s) = .error (.bufIndexOutOfRange (appendIndex (setEscape false s))) :=
      fun v => if_neg hs
    simp only [feedReleased, hd', feedEscaped, feedOrdinary, herr] at h
    simp [hb] at h

/-! ### FEED as a whole, in a state that holds no complete frame -/

/-- All that a FEED, in any spelling, can do if it answers a next state. -/
theorem exec_feed_cases {i : Instr} {b : Byte} {s t : State} (hf : fedByte i = some b) (h : exec i s = .next t) :
    (idle (release s) = true ∧ b ≠ Config.START ∧ t = setResult (.fed false false) (release s)) ∨
    (idle (release s) = false ∧ b = Config.ESC ∧
      t = setResult (.fed false false) (setEscape true (release s))) ∨
    (idle (release s) = false ∧ (release s).escapePending = true ∧ isEscapeCode b = true ∧
      appendIndex (setEscape false (release s)) < Config.C ∧
      t = setResult (.fed false (atCapacity (release s)))
        (pushByte (escapedLiteral b) (makeRoom (setEscape false (release s))))) ∨
    (isOrdinary b (release s) ∧ appendIndex (setEscape false (release s)) < Config.C ∧
      completes b (pushByte b (makeRoom (setEscape false (release s)))) = true ∧
      t = setResult (.fed true (atCapacity (release s)))
        (markComplete (pushByte b (makeRoom (setEscape false (release s)))))) ∨
    (isOrdinary b (release s) ∧ appendIndex (setEscape false (release s)) < Config.C ∧
      completes b (pushByte b (makeRoom (setEscape false (release s)))) = false ∧
      t = setResult (.fed false (atCapacity (release s)))
        (pushByte b (makeRoom (setEscape false (release s))))) := by
  rw [exec_of_fedByte hf] at h
  exact feedReleased_cases h

theorem idle_eq_false_of_pos {s : State} (h : 0 < s.writePosition.toNat) : idle s = false := by
  cases hi : idle s
  · rfl
  · have := (idle_iff_toNat s).1 hi
    omega

/-- Inside a frame every byte but ESC and an escaped code reaches step 5. -/
theorem isOrdinary_of_not_idle {b : Byte} {s : State} (hi : idle s = false) (h1 : b ≠ Config.ESC)
    (h2 : s.escapePending = true → b ≠ Config.ESC_END ∧ b ≠ Config.ESC_ESC) : isOrdinary b s := by
  refine ⟨fun h => (by rw [hi] at h; cases h), h1, fun he => ?_⟩
  simpa [isEscapeCode] using h2 he

/-- An ordinary store with room. -/
theorem feedByte_ordinary_of_lt {b : Byte} {s : State} (hr : ready s = false) (ho : isOrdinary b s)
    (h : s.writePosition.toNat < Config.C) :
    feedByte b s =
      if b = Config.END ∧ Config.MINLEN < s.writePosition.toNat + 1 then
        .next (setResult (.fed true false) (markComplete (pushByte b (setEscape false s))))
      else .next (setResult (.fed false false) (pushByte b (setEscape false s))) := by
  have hne : (setEscape false s).writePosition.toNat ≠ Config.C := by rw [setEscape_writePosition]; omega
  have hc : atCapacity s = false := by
    cases ha : atCapacity s
    · rfl
    · have := (atCapacity_iff s).1 ha
      omega
  rw [feedByte, release_of_not_ready hr,
    feedReleased_ordinary ho (by rw [appendIndex_of_ne hne]; exact h), makeRoom_of_ne hne]
  simp only [completes_iff, pushByte_writePosition_toNat b (s := setEscape false s) h, hc, setEscape_writePosition]

/-- An ordinary store at a full buffer: the overflow reset, and no completion. -/
theorem feedByte_ordinary_of_full {b : Byte} {s : State} (hr : ready s = false) (ho : isOrdinary b s)
    (h : s.writePosition.toNat = Config.C) :
    feedByte b s = .next (setResult (.fed false true) (pushByte b (clearBlock (setEscape false s)))) := by
  have hf : (setEscape false s).writePosition.toNat = Config.C := h
  rw [feedByte, release_of_not_ready hr,
    feedReleased_ordinary ho (by rw [appendIndex_of_full hf]; decide), makeRoom_of_full hf,
    (atCapacity_iff s).2 h, if_neg]
  rw [completes_iff]
  rintro ⟨_, hm⟩
  exact absurd hm (by show ¬ (80 < 1); decide)

/-- An escaped store with room. -/
theorem feedByte_escaped_of_lt {b : Byte} {s : State} (hr : ready s = false) (hi : idle s = false)
    (he : s.escapePending = true) (hc : isEscapeCode b = true) (h : s.writePosition.toNat < Config.C) :
    feedByte b s = .next (setResult (.fed false false) (pushByte (escapedLiteral b) (setEscape false s))) := by
  have hne : (setEscape false s).writePosition.toNat ≠ Config.C := by rw [setEscape_writePosition]; omega
  have ha : atCapacity s = false := by
    cases ha : atCapacity s
    · rfl
    · have := (atCapacity_iff s).1 ha
      omega
  rw [feedByte, release_of_not_ready hr,
    feedReleased_escaped hi he hc (by rw [appendIndex_of_ne hne]; exact h), makeRoom_of_ne hne, ha]

/-- An escaped store at a full buffer. -/
theorem feedByte_escaped_of_full {b : Byte} {s : State} (hr : ready s = false) (hi : idle s = false)
    (he : s.escapePending = true) (hc : isEscapeCode b = true) (h : s.writePosition.toNat = Config.C) :
    feedByte b s =
      .next (setResult (.fed false true) (pushByte (escapedLiteral b) (clearBlock (setEscape false s)))) := by
  have hf : (setEscape false s).writePosition.toNat = Config.C := h
  rw [feedByte, release_of_not_ready hr,
    feedReleased_escaped hi he hc (by rw [appendIndex_of_full hf]; decide), makeRoom_of_full hf,
    (atCapacity_iff s).2 h]

/-- What a store with room, and a store after an overflow reset, leave in BUF. -/
theorem storedAt_push (v : Byte) (s : State) (r : Result) :
    StoredAt s (setResult r (pushByte v (setEscape false s))) s.writePosition.toNat v := by
  refine ⟨by simp [bufByte_pushByte], fun j hj => ?_⟩
  simp [bufByte_pushByte, hj]

theorem storedAt_push_cleared (v : Byte) (s : State) (r : Result) :
    StoredAt s (setResult r (pushByte v (clearBlock (setEscape false s)))) 0 v := by
  refine ⟨by simp [bufByte_pushByte], fun j hj => ?_⟩
  simp [bufByte_pushByte, hj]

end Sys2Proof.Machine
end

