-- ==== Sys2Proof/Laws/Extract.lean ====
section
/-! SUPPORT. What the extraction operations can do: the copy into OUT, and the scan of an address field. -/

namespace Sys2Proof.Machine

/-- The bytes a copy delivers stand in OUT where R91 and R93 put them. -/
theorem deliveredAt_deliver {s : State} {src n dst : Nat} {bs : List Byte} (r : Result) (hl : bs.length = n)
    (hb : ∀ k, k < n → bs[k]? = some (bufByte s (src + k))) :
    DeliveredAt s (setResult r (deliver dst bs s)) dst src n := by
  refine ⟨fun k hk => ?_, fun a ha => ?_⟩
  · rw [setResult_out, deliver_out, Memory.read_writeList, if_pos (by omega), show dst + k - dst = k by omega, hb k hk]
  · rw [setResult_out, deliver_out, Memory.read_writeList, if_neg (by omega)]

/-- All that a copy can do, if it answers a next state. -/
theorem copyOut_eq_next {s t : State} {src n dst count : Nat} (h : copyOut s src n dst count = .next t) :
    ∃ bs, bs.length = n ∧ (∀ k, k < n → bs[k]? = some (bufByte s (src + k))) ∧
      t = setResult (.count count) (deliver dst bs s) := by
  unfold copyOut at h
  split at h
  · cases h
  · next bs hbs =>
    obtain ⟨hl, hb⟩ := readRange_eq_ok hbs
    exact ⟨bs, hl, hb, by cases h; rfl⟩

/-- A copy of a range inside BUF, or of nothing, completes. -/
theorem copyOut_completes {s : State} {src n dst count : Nat} (h : n = 0 ∨ src + n ≤ Config.C) :
    ∃ t, copyOut s src n dst count = .next t := by
  unfold copyOut
  rcases h with h | h
  · subst h; exact ⟨_, rfl⟩
  · rw [readRange_ok s src n h]; exact ⟨_, rfl⟩

theorem even_of_not_terminator {b : Byte} (h : isTerminator b = false) : b.toNat % 2 = 0 := by
  have : ¬ b.toNat % 2 = 1 := fun hn => by rw [(isTerminator_iff b).2 hn] at h; cases h
  omega

/-- The scan of XADDR is the one R93 describes. -/
theorem scanField_takes (s : State) (start : Nat) (h : s.writePosition.toNat ≤ Config.C) :
    ∃ n found, scanField s start (s.writePosition.toNat - start) = .ok (n, found) ∧
      (found = true → ∃ T, FieldEndsAt s start T ∧ n = T - start + 1) ∧
      (found = false → NoTerminator s start ∧ n = s.writePosition.toNat - start) := by
  by_cases hlt : start < s.writePosition.toNat
  · rcases scanField_ok s start (s.writePosition.toNat - start) (by omega) with ⟨k, hk, he, ht, hj⟩ | ⟨he, hj⟩
    · refine ⟨k + 1, true, he, fun _ => ⟨start + k, ⟨by omega, by omega, (isTerminator_iff _).1 ht, ?_⟩, by omega⟩,
        fun hf => (by cases hf)⟩
      intro j h1 h2
      have := even_of_not_terminator (hj (j - start) (by omega))
      rwa [show start + (j - start) = j by omega] at this
    · refine ⟨_, false, he, fun hf => (by cases hf), fun _ => ⟨?_, rfl⟩⟩
      intro j h1 h2
      have := even_of_not_terminator (hj (j - start) (by omega))
      rwa [show start + (j - start) = j by omega] at this
  · have hz : s.writePosition.toNat - start = 0 := by omega
    rw [hz]
    exact ⟨0, false, rfl, fun hf => (by cases hf), fun _ => ⟨fun j h1 h2 => (by omega), rfl⟩⟩

/-- There is one terminator at most. -/
theorem fieldEndsAt_unique {s : State} {start T U : Nat} (h1 : FieldEndsAt s start T) (h2 : FieldEndsAt s start U) :
    T = U := by
  obtain ⟨hs1, hw1, ho1, hb1⟩ := h1
  obtain ⟨hs2, hw2, ho2, hb2⟩ := h2
  by_cases hlt : T < U
  · have := hb2 T hs1 hlt; omega
  · by_cases hgt : U < T
    · have := hb1 U hs2 hgt; omega
    · omega

theorem not_noTerminator {s : State} {start T : Nat} (h1 : FieldEndsAt s start T) (h2 : NoTerminator s start) :
    False := by
  have := h2 T h1.1 h1.2.1
  have := h1.2.2.1
  omega

/-- The scan takes one number of bytes. -/
theorem scanTakes_unique {s : State} {start n m : Nat} (h1 : ScanTakes s start n) (h2 : ScanTakes s start m) :
    n = m := by
  rcases h1 with ⟨T, hT, rfl⟩ | ⟨hN, rfl⟩ <;> rcases h2 with ⟨U, hU, rfl⟩ | ⟨hM, rfl⟩
  · rw [fieldEndsAt_unique hT hU]
  · exact (not_noTerminator hT hM).elim
  · exact (not_noTerminator hU hN).elim
  · rfl

/-- The scan stays in the populated range. -/
theorem scanTakes_le {s : State} {start n : Nat} (h : ScanTakes s start n) :
    n = 0 ∨ start + n ≤ s.writePosition.toNat := by
  rcases h with ⟨T, hT, rfl⟩ | ⟨_, rfl⟩
  · have := hT.1; have := hT.2.1; omega
  · omega

/-- All that XADDR can do, in a state with `write_position <= C`: raise, or copy what the scan takes. -/
theorem execXaddr_cases (a b c : Operand) (s : State) (h : s.writePosition.toNat ≤ Config.C) :
    ∃ n found, ScanTakes s a.toNat n ∧
      (found = true → ∃ T, FieldEndsAt s a.toNat T ∧ n = T - a.toNat + 1) ∧
      (found = false → NoTerminator s a.toNat ∧ n = s.writePosition.toNat - a.toNat) ∧
      exec (.xaddr a b c) s =
        if 0 < n ∧ c.toNat < b.toNat + n then raiseFault (.outBufferTooSmall (b.toNat + n) c) s
        else copyOut s a.toNat n b.toNat (if found then n else 0) := by
  obtain ⟨n, found, he, ht, hf⟩ := scanField_takes s a.toNat h
  refine ⟨n, found, ?_, ht, hf, ?_⟩
  · cases hfound : found
    · exact .inr (hf hfound)
    · exact .inl (ht hfound)
  · simp only [exec, execXaddr, he]

end Sys2Proof.Machine
end

