-- ==== Sys2Proof/Laws/Inv.lean ====
section
/-! SUPPORT. What each shared operation does to the invariant; the states of the state machine by their flags. -/

namespace Sys2Proof.Machine

/-! ### The states by their flags (R105) -/

theorem mode_idle_iff (s : State) : mode s = .idle ↔ idle s = true := by
  unfold mode
  cases idle s <;> cases ready s <;> simp

theorem mode_accumulating_iff (s : State) : mode s = .accumulating ↔ idle s = false ∧ ready s = false := by
  unfold mode
  cases idle s <;> cases ready s <;> simp

theorem mode_frameReady_iff (s : State) : mode s = .frameReady ↔ ready s = true := by
  unfold mode
  cases hi : idle s
  · cases ready s <;> simp
  · simp [not_ready_of_idle ((idle_iff s).1 hi)]

/-! ### The invariant -/

/-- Without a complete frame, `frame_length` is 0 (R109). -/
theorem frameLength_eq_zero {s : State} (h : Inv s) (hr : ready s = false) : s.frameLength.toNat = 0 := by
  rw [ready_eq_false_iff] at hr
  refine Classical.byContradiction fun hn => hr ⟨by omega, h.length_eq (by omega)⟩

/-- A pending escape is pending in Accumulating (R111). -/
theorem accumulating_of_escape {s : State} (h : Inv s) (he : s.escapePending = true) : mode s = .accumulating := by
  obtain ⟨h1, h2⟩ := h.escape_accumulating he
  exact (mode_accumulating_iff s).2 ⟨idle_eq_false_of_pos h1, (ready_eq_false_iff s).2 (by omega)⟩

/-- The invariant is not about the result. -/
theorem inv_setResult {s : State} (r : Result) (h : Inv s) : Inv (setResult r s) :=
  ⟨h.1, h.2, h.3, h.4, h.5, h.6, h.7, h.8, h.9, h.10⟩

/-- The invariant is not about the requests. -/
theorem inv_requests {s : State} (rs : List Request) (h : Inv s) : Inv { s with requests := rs } :=
  ⟨h.1, h.2, h.3, h.4, h.5, h.6, h.7, h.8, h.9, h.10⟩

theorem inv_clearBlock {s : State} (h : Inv s) : Inv (clearBlock s) :=
  ⟨by simp, by simp, by simp, by simp, by simp, by simp, h.7, h.8, h.9, h.10⟩

theorem inv_resetBlock {s : State} (h : Inv s) : Inv (resetBlock s) :=
  ⟨by simp, by simp, by simp, by simp, by simp, by simp, rfl, rfl, h.9, h.10⟩

theorem inv_release {s : State} (h : Inv s) : Inv (release s) := by
  cases hr : ready s
  · rwa [release_of_not_ready hr]
  · rw [release_of_ready hr]; exact inv_clearBlock h

theorem inv_makeRoom {s : State} (h : Inv s) : Inv (makeRoom s) := by
  by_cases hc : s.writePosition.toNat = Config.C
  · rw [makeRoom_of_full hc]; exact inv_clearBlock h
  · rwa [makeRoom_of_ne hc]

theorem inv_clearEscape {s : State} (h : Inv s) : Inv (setEscape false s) :=
  ⟨h.1, h.2, h.3, by simp, h.5, h.6, h.7, h.8, h.9, h.10⟩

/-- The introducer is pending only in Accumulating (R70, R111). -/
theorem inv_setEscape {s : State} (h : Inv s) (hm : mode s = .accumulating) : Inv (setEscape true s) := by
  obtain ⟨hi, hr⟩ := (mode_accumulating_iff s).1 hm
  refine ⟨h.1, h.2, h.3, fun _ => ⟨?_, frameLength_eq_zero (s := s) h hr⟩, h.5, h.6, h.7, h.8, h.9, h.10⟩
  refine Classical.byContradiction fun hn => ?_
  have hz : s.writePosition.toNat = 0 := by rw [setEscape_writePosition] at hn; omega
  rw [(idle_iff_toNat s).2 hz] at hi
  cases hi

/-- A store inside BUF, with no frame complete and no escape pending (R108, R119). -/
theorem inv_pushByte {s : State} (v : Byte) (h : Inv s) (hl : s.frameLength.toNat = 0)
    (he : s.escapePending = false) (hlt : s.writePosition.toNat < Config.C) : Inv (pushByte v s) := by
  refine ⟨?_, fun hp => ?_, .inl hl, fun hh => ?_, fun hp => ?_, fun i hi => ?_, Memory.wf_write _ _ _ h.7,
    Memory.below_write _ _ _ _ h.8 hlt, h.9, h.10⟩
  · rw [pushByte_writePosition_toNat v hlt]; omega
  · rw [pushByte_frameLength, hl] at hp; exact absurd hp (Nat.lt_irrefl 0)
  · rw [pushByte_escapePending, he] at hh; cases hh
  · rw [pushByte_frameLength, hl] at hp; exact absurd hp (Nat.lt_irrefl 0)
  · rw [pushByte_writePosition_toNat v hlt] at hi
    rw [pushByte_buf, Memory.read_write]
    split
    · rfl
    · exact h.populated i (by omega)

/-- A completion above the length floor (R75, R112). -/
theorem inv_markComplete {s : State} (h : Inv s) (hl : s.frameLength.toNat = 0) (he : s.escapePending = false)
    (hlt : s.writePosition.toNat < Config.C)
    (hm : Config.MINLEN < (pushByte Config.END s).writePosition.toNat) :
    Inv (markComplete (pushByte Config.END s)) := by
  have hp := inv_pushByte Config.END h hl he hlt
  refine ⟨hp.1, fun _ => rfl, .inr ⟨hm, hp.1⟩, fun hh => ?_, fun _ => ?_, hp.6, hp.7, hp.8, hp.9, hp.10⟩
  · rw [markComplete_escapePending, pushByte_escapePending, he] at hh; cases hh
  · rw [bufByte_markComplete, bufByte_pushByte, if_pos]
    rw [markComplete_frameLength, pushByte_writePosition_toNat _ hlt]; omega

/-- A delivery to OUT below any capacity (R18, R41). -/
theorem inv_deliver {s : State} (h : Inv s) {d : Nat} {bs : List Byte}
    (hd : d + bs.length ≤ 2 ^ Config.IDXW ∨ bs = []) : Inv (deliver d bs s) := by
  refine ⟨h.1, h.2, h.3, h.4, h.5, h.6, h.7, h.8, Memory.wf_writeList _ _ _ h.9, ?_⟩
  rcases hd with hd | rfl
  · exact Memory.below_writeList _ _ _ _ h.10 hd
  · exact h.10

/-! ### Traces -/

theorem runOps_single {i : Instr} {s t : State} (h : exec i s = .next t) :
    runOps [i] s = .next ([t.result], t) := by simp [runOps, h]

theorem runOps_cons {i : Instr} {is : List Instr} {s t u : State} {rs : List Result} (h1 : exec i s = .next t)
    (h2 : runOps is t = .next (rs, u)) : runOps (i :: is) s = .next (t.result :: rs, u) := by
  simp [runOps, h1, h2]

/-- A trace that ends well begins with an operation that does. -/
theorem runOps_cons_eq_next {i : Instr} {is : List Instr} {s u : State} {rs : List Result}
    (h : runOps (i :: is) s = .next (rs, u)) :
    ∃ t rs', exec i s = .next t ∧ runOps is t = .next (rs', u) ∧ rs = t.result :: rs' := by
  simp only [runOps] at h
  split at h
  · next t ht =>
    split at h
    · next rs' u' hr => cases h; exact ⟨t, rs', ht, hr, rfl⟩
    · cases h
    · cases h
  · cases h
  · cases h

theorem runOps_append {as bs : List Instr} {s t u : State} {ra rb : List Result}
    (h1 : runOps as s = .next (ra, t)) (h2 : runOps bs t = .next (rb, u)) :
    runOps (as ++ bs) s = .next (ra ++ rb, u) := by
  induction as generalizing s ra with
  | nil => cases h1; exact h2
  | cons i is ih =>
    obtain ⟨t', rs', h3, h4, rfl⟩ := runOps_cons_eq_next h1
    exact runOps_cons h3 (ih h4)

end Sys2Proof.Machine
end

