-- ==== Sys2Proof/Laws/PerInstr.lean ====
section
/-! SUPPORT. Per instruction: its encoding lies in its own row of the opcode table (format, and `op` or octet). -/

namespace Sys2Proof.Laws.EncodedRow

/-- The row of spec/opcode_table.json that a word matches by its mask and match, as the mnemonic's place in it. -/
def rowOf : RequestWord → Nat
  | .cmd w => min (opField w).toNat 5
  | .byte b =>
    if b = 0x37 then 6 else if b = 0xC0 then 7 else if b = 0xDB then 8 else if b = 0xDC then 9
    else if b = 0xDD then 10 else 11

/-- The place of an instruction's own row in the table, counted from 0. -/
def rowIndex : Instr → Nat
  | .clear => 0
  | .feed _ => 1
  | .xtel _ => 2
  | .xaddr _ _ _ => 3
  | .xcsum _ => 4
  | .reservedOp _ => 5
  | .start => 6
  | .endMark => 7
  | .esc => 8
  | .escEnd => 9
  | .escEsc => 10
  | .data _ => 11

/-- The encoding of a well-formed instruction matches the instruction's row. -/
def Statement (i : Instr) : Prop := i.wf = true → rowOf (encode i) = rowIndex i

theorem clear : Statement .clear := fun _ => rfl

theorem feed (b : Byte) : Statement (.feed b) := fun _ => by
  simp [encode, rowOf, rowIndex, opFEED]

theorem xtel (cap : Operand) : Statement (.xtel cap) := fun _ => by
  simp [encode, rowOf, rowIndex, opXTEL]

theorem xaddr (a b c : Operand) : Statement (.xaddr a b c) := fun _ => by
  simp [encode, rowOf, rowIndex, opXADDR]

theorem xcsum (p : Operand) : Statement (.xcsum p) := fun _ => by
  simp [encode, rowOf, rowIndex, opXCSUM]

theorem reservedOp (op : Byte) : Statement (.reservedOp op) := fun h => by
  simp only [Instr.wf, decide_eq_true_eq] at h
  simp only [encode, rowOf, rowIndex, opField_packCmd]
  omega

theorem start : Statement .start := fun _ => rfl

theorem endMark : Statement .endMark := fun _ => rfl

theorem esc : Statement .esc := fun _ => rfl

theorem escEnd : Statement .escEnd := fun _ => rfl

theorem escEsc : Statement .escEsc := fun _ => rfl

theorem data (b : Byte) : Statement (.data b) := fun h => by
  simp only [Instr.wf, Config.namedBytes, Bool.not_eq_true', List.contains_eq_mem, decide_eq_false_iff_not,
    List.mem_cons, List.not_mem_nil, or_false, not_or] at h
  obtain ⟨h1, h2, h3, h4, h5⟩ := h
  exact (if_neg h1).trans ((if_neg h2).trans ((if_neg h3).trans ((if_neg h4).trans (if_neg h5))))

end Sys2Proof.Laws.EncodedRow
end

