-- ==== Sys2Proof/Tests/Slice0.lean ====
section
/-! SUPPORT. Small tests whose expected results come from the spec's own tables, and a witness for the hypotheses of
each statement that has some. -/

namespace Sys2Proof.Tests

open Sys2Proof.Machine

/-! ### Helpers -/

/-- The outcome is a next state with a property. -/
def nextHas (o : Host.Outcome State Fault Refusal) (p : State → Bool) : Bool :=
  match o with
  | .next t => p t
  | .fault _ => false
  | .refused _ => false

theorem exists_of_nextHas {o : Host.Outcome State Fault Refusal} {p : State → Bool} (h : nextHas o p = true) :
    ∃ t, o = .next t ∧ p t = true := by
  cases o with
  | next t => exact ⟨t, rfl, h⟩
  | fault f => cases h
  | refused r => cases h

/-- The trace ends well, with results that have a property. -/
def traceHas (o : Host.Outcome (List Result × State) Fault Refusal) (p : List Result → Bool) : Bool :=
  match o with
  | .next (rs, _) => p rs
  | .fault _ => false
  | .refused _ => false

theorem exists_of_traceHas {o : Host.Outcome (List Result × State) Fault Refusal} {p : List Result → Bool}
    (h : traceHas o p = true) : ∃ rs t, o = .next (rs, t) ∧ p rs = true := by
  cases o with
  | next q => exact ⟨q.1, q.2, rfl, h⟩
  | fault f => cases h
  | refused r => cases h

/-- A state with the given registers, nothing stored in BUF. -/
def regs (wp fl : Nat) (esc : Bool) : State :=
  { State.reset with writePosition := BitVec.ofNat 10 wp, frameLength := BitVec.ofNat 10 fl, escapePending := esc }

/-- A state with the given `write_position` and the first bytes of BUF. -/
def holding (wp fl : Nat) (bytes : List Byte) : State :=
  { regs wp fl false with buf := Memory.writeList [] 0 bytes }

/-- Accumulating, `n` bytes `0x11` stored, with or without a pending escape. -/
def accState (n : Nat) (esc : Bool) : State :=
  { regs n 0 esc with buf := Memory.writeList [] 0 (List.replicate n 0x11) }

/-- FrameReady, a frame of `n` bytes. -/
def readyState (n : Nat) : State :=
  { regs n n false with buf := Memory.writeList [] 0 (List.replicate (n - 1) 0x11 ++ [Config.END]) }

theorem ofNat_toNat {n : Nat} (h : n ≤ Config.C) : (BitVec.ofNat 10 n).toNat = n := by
  rw [BitVec.toNat_ofNat]
  have : n ≤ 512 := h
  exact Nat.mod_eq_of_lt (by omega)

theorem accState_inv {n : Nat} (esc : Bool) (h0 : 0 < n) (h : n ≤ Config.C) : Inv (accState n esc) := by
  have hw : (accState n esc).writePosition.toNat = n := ofNat_toNat h
  have hl : (accState n esc).frameLength.toNat = 0 := rfl
  refine ⟨by rw [hw]; exact h, fun hp => ?_, .inl hl, fun _ => ⟨by rw [hw]; exact h0, hl⟩, fun hp => ?_,
    fun i hi => ?_, Memory.wf_writeList _ _ _ rfl, Memory.below_writeList _ _ _ _ rfl ?_, rfl, rfl⟩
  · rw [hl] at hp; exact absurd hp (Nat.lt_irrefl 0)
  · rw [hl] at hp; exact absurd hp (Nat.lt_irrefl 0)
  · rw [hw] at hi
    show (Memory.read (Memory.writeList [] 0 (List.replicate n 0x11)) i).isSome = true
    rw [Memory.read_writeList, List.length_replicate, if_pos (by omega)]
    simp [hi]
  · rw [List.length_replicate]; omega

theorem readyState_inv {n : Nat} (h0 : Config.MINLEN < n) (h : n ≤ Config.C) : Inv (readyState n) := by
  have hw : (readyState n).writePosition.toNat = n := ofNat_toNat h
  have hl : (readyState n).frameLength.toNat = n := ofNat_toNat h
  have hlen : (List.replicate (n - 1) (0x11 : Byte) ++ [Config.END]).length = n := by
    rw [List.length_append, List.length_replicate]
    show n - 1 + 1 = n
    omega
  have hread : ∀ i, Memory.read (readyState n).buf i =
      if 0 ≤ i ∧ i < 0 + n then (List.replicate (n - 1) (0x11 : Byte) ++ [Config.END])[i - 0]? else none := by
    intro i
    show Memory.read (Memory.writeList [] 0 (List.replicate (n - 1) 0x11 ++ [Config.END])) i = _
    rw [Memory.read_writeList, hlen, Memory.read_nil]
  refine ⟨by rw [hw]; exact h, fun _ => rfl, .inr ⟨by rw [hl]; exact h0, by rw [hl]; exact h⟩,
    fun he => (by cases he), fun _ => ?_, fun i hi => ?_, Memory.wf_writeList _ _ _ rfl,
    Memory.below_writeList _ _ _ _ rfl (by rw [hlen]; omega), rfl, rfl⟩
  · rw [hl, bufByte, hread, if_pos (by omega), List.getElem?_append_right (by rw [List.length_replicate]; omega)]
    simp
  · rw [hw] at hi
    rw [hread, if_pos (by omega), List.getElem?_eq_getElem (by rw [hlen]; omega)]
    rfl

/-! ### WellFormed refuses each ill-formed term (R46, R53) -/

theorem test_wf_refuses_reservedOp_of_an_operation :
    (Instr.reservedOp 0x00).wf = false ∧ (Instr.reservedOp 0x01).wf = false ∧ (Instr.reservedOp 0x02).wf = false ∧
    (Instr.reservedOp 0x03).wf = false ∧ (Instr.reservedOp 0x04).wf = false := by decide

theorem test_wf_refuses_data_of_a_named_byte :
    (Instr.data 0x37).wf = false ∧ (Instr.data 0xC0).wf = false ∧ (Instr.data 0xDB).wf = false ∧
    (Instr.data 0xDC).wf = false ∧ (Instr.data 0xDD).wf = false := by decide

theorem test_wf_accepts :
    (Instr.reservedOp 0x05).wf = true ∧ (Instr.reservedOp 0xFF).wf = true ∧ (Instr.data 0x36).wf = true ∧
    (Instr.data 0x38).wf = true := by decide

/-! ### Decoding (spec/95_test_vectors.md V-E1 to V-E10; R46) -/

theorem test_decode_clear : decode (.cmd 0x00ABCD12345678) = .clear := by decide
theorem test_decode_feed : decode (.cmd 0x01FFFFFFFFFF37) = .feed 0x37 := by decide
theorem test_decode_xtel : decode (.cmd 0x02000000000200) = .xtel 512 := by decide
theorem test_decode_xaddr : decode (.cmd 0x03000400030008) = .xaddr 4 3 8 := by decide
theorem test_decode_xcsum : decode (.cmd 0x04004D00000000) = .xcsum 77 := by decide
theorem test_decode_reservedOp : decode (.cmd 0x05000000000000) = .reservedOp 0x05 := by decide
theorem test_decode_start : decode (.byte 0b00110111) = .start := by decide
theorem test_decode_endMark : decode (.byte 0b11000000) = .endMark := by decide
theorem test_decode_esc : decode (.byte 0b11011011) = .esc := by decide
theorem test_decode_escEnd : decode (.byte 0b11011100) = .escEnd := by decide
theorem test_decode_escEsc : decode (.byte 0b11011101) = .escEsc := by decide
theorem test_decode_data : decode (.byte 0xDE) = .data 0xDE := by decide

/-- R46: the ends of the four ranges of class DATA. -/
theorem test_decode_data_ranges :
    [(0x00 : Byte), 0x36, 0x38, 0xBF, 0xC1, 0xDA, 0xDE, 0xFF].all
      (fun b => decide (decode (.byte b) = .data b)) = true := by decide

theorem test_decodeTableWord :
    decodeTableWord 56 0x03000100000008 = some (.xaddr 1 0 8) ∧ decodeTableWord 8 0xDB = some .esc ∧
    decodeTableWord 16 0x37 = none := by decide

theorem test_tableWord_rejects_by_name : tableWord 16 0x37 = .error (.noSuchFormat 16) := by rfl

theorem test_withFetchWord_runs_the_word :
    nextHas (step (State.reset.withFetchWord 56 0x01000000000037))
      (fun t => t.writePosition == 1 && t.requests.isEmpty) = true := by decide

/-! ### CLEAR (V-C2), the reserved codes (V-E8) -/

theorem test_clear_mid_frame :
    nextHas (exec .clear (accState 37 true)) (fun t => t.writePosition == 0 && t.frameLength == 0 &&
      !t.escapePending && Memory.read t.buf 36 == some 0x11) = true := by decide

theorem test_reservedOp :
    nextHas (exec (.reservedOp 0x05) (regs 81 81 false)) (fun t =>
      decide (t = { regs 81 81 false with result := .fault (.illegalOperation 0x05) })) = true := by decide

/-! ### FEED: the twenty rows of R79, and the six BYTE rows -/

/-- Registers before, the byte, registers after, the store, the two result bits. -/
structure FeedRow where
  before : Nat × Nat × Bool
  b : Byte
  after : Nat × Nat × Bool
  store : Option (Nat × Byte)
  result : Bool × Bool

def FeedRow.holdsOf (r : FeedRow) (i : Instr) : Bool :=
  nextHas (exec i (regs r.before.1 r.before.2.1 r.before.2.2)) fun t =>
    decide (t = { regs r.after.1 r.after.2.1 r.after.2.2 with
      buf := match r.store with
        | none => []
        | some c => [c]
      result := .fed r.result.1 r.result.2 })

/-- spec/40_clear_feed.md R79, rows 1 to 10. -/
def rowsOne : List FeedRow :=
  [⟨(0, 0, false), 0x00, (0, 0, false), none, (false, false)⟩,
   ⟨(0, 0, false), 0xDB, (0, 0, false), none, (false, false)⟩,
   ⟨(0, 0, false), 0xC0, (0, 0, false), none, (false, false)⟩,
   ⟨(0, 0, false), 0x37, (1, 0, false), some (0, 0x37), (false, false)⟩,
   ⟨(1, 0, false), 0x37, (2, 0, false), some (1, 0x37), (false, false)⟩,
   ⟨(5, 0, true), 0xDB, (5, 0, true), none, (false, false)⟩,
   ⟨(5, 0, true), 0x41, (6, 0, false), some (5, 0x41), (false, false)⟩,
   ⟨(5, 0, false), 0xDC, (6, 0, false), some (5, 0xDC), (false, false)⟩,
   ⟨(79, 0, false), 0xC0, (80, 0, false), some (79, 0xC0), (false, false)⟩,
   ⟨(80, 0, false), 0xC0, (81, 81, false), some (80, 0xC0), (true, false)⟩]

/-- spec/40_clear_feed.md R79, rows 11 to 20. -/
def rowsTwo : List FeedRow :=
  [⟨(80, 0, true), 0xDC, (81, 0, false), some (80, 0xC0), (false, false)⟩,
   ⟨(512, 0, false), 0xC0, (1, 0, false), some (0, 0xC0), (false, true)⟩,
   ⟨(512, 0, false), 0xDB, (512, 0, true), none, (false, false)⟩,
   ⟨(512, 0, true), 0xDC, (1, 0, false), some (0, 0xC0), (false, true)⟩,
   ⟨(511, 0, false), 0xC0, (512, 512, false), some (511, 0xC0), (true, false)⟩,
   ⟨(81, 81, false), 0x55, (0, 0, false), none, (false, false)⟩,
   ⟨(81, 81, false), 0x37, (1, 0, false), some (0, 0x37), (false, false)⟩,
   ⟨(81, 81, false), 0xDB, (0, 0, false), none, (false, false)⟩,
   ⟨(80, 0, true), 0xC0, (81, 81, false), some (80, 0xC0), (true, false)⟩,
   ⟨(512, 512, false), 0x37, (1, 0, false), some (0, 0x37), (false, false)⟩]

theorem test_feed_corner_cases_one : rowsOne.all (fun r => r.holdsOf (.feed r.b)) = true := by decide
theorem test_feed_corner_cases_two : rowsTwo.all (fun r => r.holdsOf (.feed r.b)) = true := by decide

/-- The same rows, each byte requested as the received octet it is. -/
theorem test_octet_corner_cases :
    (rowsOne ++ rowsTwo).all (fun r => r.holdsOf (decode (.byte r.b))) = true := by decide

/-! ### The extractors (spec/95_test_vectors.md 2.6 to 2.8) -/

/-- V-X3, V-X4: the 81-byte frame `37 01 02 .. 4F C0`. -/
def frame81 : State :=
  holding 81 81 ((0x37 :: (List.range 79).map fun k => BitVec.ofNat 8 (k + 1)) ++ [0xC0])

theorem test_xtel_exact_room :
    nextHas (exec (.xtel 80) frame81) (fun t => t.result == .count 80 && Memory.read t.out 0 == some 0x37 &&
      Memory.read t.out 79 == some 0x4F && Memory.read t.out 80 == none) = true := by decide

theorem test_xtel_too_small :
    nextHas (exec (.xtel 79) frame81) (fun t => t.result == .fault (.outBufferTooSmall 80 79) &&
      t.out.isEmpty) = true := by decide

/-- V-X9 to V-X15: `buf[0..5] = 37 02 04 21 13 A0`. -/
def addressed (wp : Nat) : State := holding wp 0 [0x37, 0x02, 0x04, 0x21, 0x13, 0xA0]

theorem test_xaddr_found :
    nextHas (exec (.xaddr 1 5 8) (addressed 6)) (fun t => decide (t.result = .count 3 ∧
      t.out = [(5, 0x02), (6, 0x04), (7, 0x21)])) = true ∧
    nextHas (exec (.xaddr 1 6 8) (addressed 6)) (fun t => decide (t.result = .fault (.outBufferTooSmall 9 8) ∧
      t.out = [])) = true := by decide

theorem test_xaddr_not_found :
    nextHas (exec (.xaddr 1 0 8) (addressed 3)) (fun t => decide (t.result = .count 0 ∧
      t.out = [(0, 0x02), (1, 0x04)])) = true ∧
    nextHas (exec (.xaddr 600 9 0) (addressed 6)) (fun t => decide (t.result = .count 0 ∧ t.out = [])) = true := by
  decide

/-- V-X5: the low byte is at the lower index. -/
theorem test_xcsum_byte_order :
    nextHas (exec (.xcsum 77) { State.reset with buf := [(78, 0x34), (79, 0x12)] })
      (fun t => t.result == .checksum 0x1234) = true := by decide

/-- V-X6, V-X6b: out of range, the sum not truncated; V-X5c: the last legal position. -/
theorem test_xcsum_range :
    nextHas (exec (.xcsum 510) State.reset) (fun t => t.result == .fault (.positionOutOfRange 510)) = true ∧
    nextHas (exec (.xcsum 65535) State.reset) (fun t => t.result == .fault (.positionOutOfRange 65535)) = true ∧
    nextHas (exec (.xcsum 509) { State.reset with buf := [(510, 0xAB), (511, 0xCD)] })
      (fun t => t.result == .checksum 0xCDAB) = true := by decide

/-- V-X7: after reset XCSUM completes; its value is the free value, so no number is expected. -/
theorem test_xcsum_after_reset_completes :
    nextHas (exec (.xcsum 0) State.reset) (fun t => t.writePosition == 0) = true := by decide

/-! ### Witnesses: a state and operands that meet the hypotheses of each statement -/

theorem witness_DecodeOfEncode : (Instr.xaddr 1 0 8).wf = true ∧ (Instr.reservedOp 0x05).wf = true ∧
    (Instr.reservedOp 0xFF).wf = true ∧ (Instr.data 0x41).wf = true := by decide

theorem witness_CmdWordDecodesByOp :
    (0x00ABCD12345678 : CmdWord).extractLsb' 48 8 = 0x00 ∧ (0x01FFFFFFFFFF37 : CmdWord).extractLsb' 48 8 = 0x01 ∧
    (0x02000000000200 : CmdWord).extractLsb' 48 8 = 0x02 ∧ (0x03000100000008 : CmdWord).extractLsb' 48 8 = 0x03 ∧
    (0x04004D00000000 : CmdWord).extractLsb' 48 8 = 0x04 ∧ 5 ≤ ((0x05000000000000 : CmdWord).extractLsb' 48 8).toNat ∧
    5 ≤ ((0xFF000000000000 : CmdWord).extractLsb' 48 8).toNat := by decide

theorem witness_OctetClasses : (0x41 : Byte) ∉ [(0x37 : Byte), 0xC0, 0xDB, 0xDC, 0xDD] ∧
    (0xDE : Byte) ∉ [(0x37 : Byte), 0xC0, 0xDB, 0xDC, 0xDD] := by decide

/-- The reset state with one request waiting. -/
def waiting (r : Request) : State := pushRequest r State.reset

theorem witness_StepRunsDecodedInstruction :
    (waiting (.word (.cmd 0x01000000000037))).requests = .word (.cmd 0x01000000000037) :: [] ∧
    decode (.cmd 0x01000000000037) = .feed 0x37 ∧ (Instr.feed 0x37).wf = true ∧
    RequestWord.cmd 0x01000000000037 = encode (.feed 0x37) := by decide

theorem witness_StepHoldsStateBetweenOperations : State.reset.requests = [] := rfl

theorem witness_ResetEventClearsBlock : (pushRequest .reset (readyState 81)).requests = .reset :: [] := rfl

theorem witness_ResetEventTakesNewDraw : (pushRequest .reset (accState 5 true)).requests = .reset :: [] := rfl

theorem reset_inv : Inv State.reset :=
  ⟨by decide, by decide, by decide, by decide, fun h => absurd h (by decide),
    fun _ h => absurd h (Nat.not_lt_zero _), rfl, rfl, rfl, rfl⟩

/-- One clause each: a word, a reset, nothing requested. -/
theorem witness_StepKeepsInvariant :
    (Inv (pushRequest (.word (.byte 0x37)) State.reset) ∧
      ∃ t, step (pushRequest (.word (.byte 0x37)) State.reset) = .next t) ∧
    (Inv (pushRequest .reset (readyState 512)) ∧ ∃ t, step (pushRequest .reset (readyState 512)) = .next t) ∧
    (Inv State.reset ∧ ∃ t, step State.reset = .next t) :=
  ⟨⟨inv_requests _ reset_inv, ⟨_, rfl⟩⟩, ⟨inv_requests _ (readyState_inv (by decide) (by decide)), ⟨_, rfl⟩⟩,
    reset_inv, ⟨_, rfl⟩⟩

theorem witness_StepNeverStops : Inv (accState 512 true) ∧ Inv (readyState 81) :=
  ⟨accState_inv true (by decide) (by decide), readyState_inv (by decide) (by decide)⟩

theorem witness_FeedReleasesCompleteFrame :
    fedByte .start = some 0x37 ∧ fedByte (.feed 0x37) = some 0x37 ∧ fedByte (.data 0x55) = some 0x55 ∧
    ready (readyState 81) = true ∧ ready (readyState 512) = true ∧ ∃ c, exec .clear (readyState 81) = .next c :=
  ⟨rfl, rfl, rfl, rfl, rfl, _, rfl⟩

theorem witness_FeedIdleTest : fedByte (.feed 0x00) = some 0x00 ∧ fedByte .esc = some 0xDB ∧ fedByte .start = some 0x37 ∧
    State.reset.writePosition = 0 ∧ (0xDB : Byte) ≠ 0x37 := by decide

theorem witness_FeedEscapeIntroducer : fedByte .esc = some 0xDB ∧ fedByte (.feed 0xDB) = some 0xDB ∧
    (ready (accState 1 false) = false ∧ (accState 1 false).writePosition ≠ 0) ∧
    (ready (accState 512 true) = false ∧ (accState 512 true).writePosition ≠ 0) := by decide

theorem witness_FeedEscapedEndMarker : fedByte .escEnd = some 0xDC ∧ fedByte (.feed 0xDC) = some 0xDC ∧
    (ready (accState 511 true) = false ∧ (accState 511 true).writePosition ≠ 0 ∧
      (accState 511 true).escapePending = true ∧ (accState 511 true).writePosition.toNat < Config.C) ∧
    (ready (accState 512 true) = false ∧ (accState 512 true).writePosition ≠ 0 ∧
      (accState 512 true).escapePending = true ∧ (accState 512 true).writePosition.toNat = Config.C) := by
  decide

theorem witness_FeedEscapedIntroducer : fedByte .escEsc = some 0xDD ∧ fedByte (.feed 0xDD) = some 0xDD ∧
    (ready (accState 1 true) = false ∧ (accState 1 true).writePosition ≠ 0 ∧
      (accState 1 true).escapePending = true ∧ (accState 1 true).writePosition.toNat < Config.C) ∧
    (ready (accState 512 true) = false ∧ (accState 512 true).writePosition ≠ 0 ∧
      (accState 512 true).escapePending = true ∧ (accState 512 true).writePosition.toNat = Config.C) := by
  decide

theorem witness_FeedOrdinaryByte :
    (fedByte (.data 0x41) = some 0x41 ∧ ready (accState 511 true) = false ∧ (accState 511 true).writePosition ≠ 0 ∧
      (0x41 : Byte) ≠ 0xDB ∧ ((accState 511 true).escapePending = true → (0x41 : Byte) ≠ 0xDC ∧ (0x41 : Byte) ≠ 0xDD) ∧
      (accState 511 true).writePosition.toNat < Config.C ∧
      ¬ ((0x41 : Byte) = 0xC0 ∧ Config.MINLEN < (accState 511 true).writePosition.toNat + 1)) ∧
    (fedByte .endMark = some 0xC0 ∧ ¬ ((0xC0 : Byte) = 0xC0 ∧ Config.MINLEN < (accState 79 false).writePosition.toNat + 1)) ∧
    (fedByte .escEnd = some 0xDC ∧ ((accState 5 false).escapePending = true → (0xDC : Byte) ≠ 0xDC ∧ (0xDC : Byte) ≠ 0xDD)) ∧
    (fedByte .start = some 0x37 ∧ ready (accState 512 false) = false ∧ (accState 512 false).writePosition ≠ 0 ∧
      (accState 512 false).writePosition.toNat = Config.C) := by decide

theorem witness_FeedCompletesFrame :
    (fedByte .endMark = some 0xC0 ∧ ready (accState 80 true) = false ∧ (accState 80 true).writePosition ≠ 0 ∧
      (accState 80 true).writePosition.toNat < Config.C ∧ Config.MINLEN < (accState 80 true).writePosition.toNat + 1) ∧
    (ready (accState 79 false) = false ∧ (accState 79 false).writePosition.toNat + 1 ≤ Config.MINLEN) ∧
    nextHas (exec (.feed 0xC0) (accState 511 false)) (fun t => t.result == .fed true false) = true := by
  decide

theorem witness_FeedOverflowReset :
    (fedByte (.data 0x22) = some 0x22 ∧ ready (accState 512 false) = false ∧
      (accState 512 false).writePosition.toNat = Config.C ∧ (0x22 : Byte) ≠ 0xDB) ∧
    nextHas (exec (.feed 0xDC) (accState 512 true)) (fun t => t.result == .fed false true) = true := by
  decide

/-- One clause each: a form that stores nothing (Idle, ESC), a form that stores. -/
theorem witness_FeedFrame :
    (fedByte (.feed 0x00) = some 0x00 ∧ idle (release (readyState 81)) = true ∧ (0x00 : Byte) ≠ 0x37 ∧
      ∃ t, exec (.feed 0x00) (readyState 81) = .next t) ∧
    (fedByte .esc = some 0xDB ∧ ∃ t, exec .esc (accState 5 false) = .next t) ∧
    (fedByte (.data 0x41) = some 0x41 ∧ ∃ t, exec (.data 0x41) (accState 512 false) = .next t) :=
  ⟨⟨rfl, rfl, by decide, _, rfl⟩, ⟨rfl, _, rfl⟩, rfl, _, rfl⟩

theorem witness_EscapePendingAfterFeed :
    (Inv (accState 5 false) ∧ fedByte .esc = some 0xDB ∧ ∃ t, exec .esc (accState 5 false) = .next t) ∧
    (Inv (readyState 81) ∧ ∃ t, exec .esc (readyState 81) = .next t) :=
  ⟨⟨accState_inv false (by decide) (by decide), rfl, _, rfl⟩, readyState_inv (by decide) (by decide), _, rfl⟩

/-- With room for one more byte, and with none. -/
theorem witness_EscapeSequenceStoresOneByte :
    Inv (accState 511 false) ∧ mode (accState 511 false) = .accumulating ∧
    Inv (accState 512 false) ∧ mode (accState 512 false) = .accumulating ∧
    (accState 512 false).writePosition.toNat = Config.C ∧ (0xDC : Byte) ≠ 0xDB ∧ (0x41 : Byte) ≠ 0xDB :=
  ⟨accState_inv false (by decide) (by decide), rfl, accState_inv false (by decide) (by decide), rfl, rfl,
    by decide, by decide⟩

theorem witness_EscapedRawEndCompletes :
    Inv (accState 80 false) ∧ mode (accState 80 false) = .accumulating ∧
    (accState 80 false).writePosition.toNat < Config.C ∧ Config.MINLEN ≤ (accState 80 false).writePosition.toNat :=
  ⟨accState_inv false (by decide) (by decide), rfl, by decide, by decide⟩

theorem witness_FeedNeverReadsBuffer :
    fedByte (.feed 0x41) = some 0x41 ∧ SameRegs (accState 5 false) (regs 5 0 false) ∧
    ∃ t, exec (.feed 0x41) (accState 5 false) = .next t := ⟨rfl, ⟨rfl, rfl, rfl⟩, _, rfl⟩

theorem witness_StreamOperationsNeverFault :
    (accState 512 false).writePosition.toNat ≤ Config.C ∧ fedByte (.data 0x41) = some 0x41 := by decide

theorem witness_CompleteResultMatchesReady :
    Inv (accState 80 false) ∧ fedByte .endMark = some 0xC0 ∧ ∃ t, exec .endMark (accState 80 false) = .next t :=
  ⟨accState_inv false (by decide) (by decide), rfl, _, rfl⟩

theorem witness_ModesArePredicates : Inv (accState 5 true) ∧ mode (accState 5 true) = .accumulating ∧
    Inv (readyState 81) ∧ mode (readyState 81) ≠ .accumulating :=
  ⟨accState_inv true (by decide) (by decide), rfl, readyState_inv (by decide) (by decide), by decide⟩

/-- One state for each row of R106. -/
theorem witness_TransitionTable :
    (Inv State.reset ∧ mode State.reset = .idle) ∧
    (Inv (accState 511 true) ∧ mode (accState 511 true) = .accumulating ∧ (accState 511 true).escapePending = true ∧
      (accState 511 true).writePosition.toNat < Config.C) ∧
    (Inv (accState 80 false) ∧ Config.MINLEN < (accState 80 false).writePosition.toNat + 1) ∧
    (Inv (accState 79 false) ∧ ¬ Config.MINLEN < (accState 79 false).writePosition.toNat + 1) ∧
    (Inv (accState 512 false) ∧ (accState 512 false).writePosition.toNat = Config.C) ∧
    (Inv (readyState 81) ∧ mode (readyState 81) = .frameReady) ∧
    (waiting .reset).requests = .reset :: [] ∧ isExtraction (.xcsum 0) = true :=
  ⟨⟨reset_inv, rfl⟩, ⟨accState_inv true (by decide) (by decide), rfl, rfl, by decide⟩,
    ⟨accState_inv false (by decide) (by decide), by decide⟩, ⟨accState_inv false (by decide) (by decide), by decide⟩,
    ⟨accState_inv false (by decide) (by decide), by decide⟩, ⟨readyState_inv (by decide) (by decide), rfl⟩, rfl, rfl⟩

/-- One clause each, the second in both states that are not Idle. -/
theorem witness_IdleAbsorbsUntilStart :
    (idle State.reset = true ∧ (0x37 : Byte) ∉ [(0x00 : Byte), 0xC0, 0xDB]) ∧
    (Inv (accState 512 true) ∧ idle (accState 512 true) = false) ∧
    (Inv (readyState 81) ∧ idle (readyState 81) = false) :=
  ⟨by decide, ⟨accState_inv true (by decide) (by decide), rfl⟩, readyState_inv (by decide) (by decide), rfl⟩

theorem witness_StuffedPayloadHidesMarkers : (stuff [0xC0, 0xDB, 0xDC])[2]? = some (0xDB : Byte) := by decide

theorem witness_FramedPayloadRoundTrip :
    Inv State.reset ∧ mode State.reset = .idle ∧ Config.MINLEN - 1 ≤ (List.replicate 79 (0xC0 : Byte)).length ∧
    (List.replicate 510 (0xC0 : Byte)).length ≤ Config.C - 2 ∧
    (List.replicate 510 (0xC0 : Byte)).length + 1 ≤ (512 : Operand).toNat := by
  refine ⟨reset_inv, rfl, ?_, ?_, ?_⟩ <;> rw [List.length_replicate] <;> decide

theorem witness_FramedPayloadBounds :
    Inv State.reset ∧ mode State.reset = .idle ∧ (List.replicate 78 (0xC0 : Byte)).length < Config.MINLEN - 1 ∧
    Config.C - 2 < (List.replicate 511 (0xC0 : Byte)).length := by
  refine ⟨reset_inv, rfl, ?_, ?_⟩ <;> rw [List.length_replicate] <;> decide

theorem witness_OverflowTailDeliveredAsFrame :
    Inv (accState 512 false) ∧ mode (accState 512 false) = .accumulating ∧
    (accState 512 false).writePosition.toNat = Config.C ∧ (accState 512 false).escapePending = false ∧
    (0x22 : Byte) ≠ 0xDB ∧ Config.MINLEN - 1 ≤ (List.replicate 79 (0x11 : Byte)).length ∧
    (List.replicate 79 (0x11 : Byte)).length ≤ Config.C - 2 := by
  refine ⟨accState_inv false (by decide) (by decide), rfl, by decide, rfl, by decide, ?_, ?_⟩ <;>
    rw [List.length_replicate] <;> decide

/-- From a complete frame, the next one, of 79 bytes `0x02`: its last FEED completes; and one request that does. -/
theorem witness_CompletionsAreSpaced :
    (Inv (readyState 81) ∧ ready (readyState 81) = true ∧
      ∃ rs t, runOps (frameOps (List.replicate 79 0x02)) (readyState 81) = .next (rs, t) ∧ rs.any isComplete = true) ∧
    (Inv (accState 80 false) ∧ [Instr.feed 0xC0].length ≤ Config.MINLEN + 1 ∧
      ∃ rs t, runOps [.feed 0xC0] (accState 80 false) = .next (rs, t)) :=
  ⟨⟨readyState_inv (by decide) (by decide), rfl, exists_of_traceHas (by decide)⟩,
    accState_inv false (by decide) (by decide), by decide, _, _, rfl⟩

theorem witness_ReadyHoldsUntilNextStreamOperation :
    Inv (readyState 81) ∧ ∀ i ∈ [Instr.xtel 512, .xaddr 1 0 8, .xcsum 77], isExtraction i = true :=
  ⟨readyState_inv (by decide) (by decide), by decide⟩

theorem witness_XtelCopiesTelegram :
    ready (accState 5 false) = false ∧
    (ready (readyState 512) = true ∧ (readyState 512).writePosition.toNat ≤ Config.C ∧
      (readyState 512).frameLength.toNat - 1 ≤ (511 : Operand).toNat) ∧
    (510 : Operand).toNat < (readyState 512).frameLength.toNat - 1 ∧
    nextHas (exec (.xtel 80) (readyState 81)) (fun t => t.result == .count 80) = true := by decide

/-- A FEED of START, and the two forms that keep index 0 too: CLEAR, and a FEED of another byte. -/
theorem witness_XtelAfterReleaseReturnsZero :
    (ready (readyState 81) = true ∧ (∃ b, fedByte .start = some b) ∧ ∃ t, exec .start (readyState 81) = .next t) ∧
    (fedByte .clear ≠ some 0x37 ∧ ∃ t, exec .clear (readyState 81) = .next t) ∧
    (fedByte (.data 0x41) ≠ some 0x37 ∧ ∃ t, exec (.data 0x41) (readyState 81) = .next t) :=
  ⟨⟨rfl, ⟨_, rfl⟩, _, rfl⟩, ⟨by decide, _, rfl⟩, by decide, _, rfl⟩

/-- V-X8, V-X9, V-X13 to V-X15: each clause at its boundary. -/
theorem witness_XaddrScansAddressField :
    (addressed 6).writePosition.toNat ≤ Config.C ∧
    (FieldEndsAt (addressed 6) 1 3 ∧ (5 : Operand).toNat + (3 - 1 + 1) ≤ (8 : Operand).toNat) ∧
    (NoTerminator (addressed 3) 1 ∧ 0 + ((addressed 3).writePosition.toNat - 1) ≤ (2 : Operand).toNat) ∧
    NoTerminator (addressed 6) 6 ∧
    (ScanTakes (addressed 6) 1 3 ∧ (8 : Operand).toNat < (6 : Operand).toNat + 3) := by
  have hT : FieldEndsAt (addressed 6) 1 3 := by
    refine ⟨by decide, by decide, by decide, fun j h1 h2 => ?_⟩
    rcases (show j = 1 ∨ j = 2 by omega) with rfl | rfl <;> decide
  refine ⟨by decide, ⟨hT, by decide⟩, ⟨fun j h1 h2 => ?_, by decide⟩, fun j h1 h2 => ?_, .inl ⟨3, hT, rfl⟩, by decide⟩
  · have h3 : j < 3 := h2
    rcases (show j = 1 ∨ j = 2 by omega) with rfl | rfl <;> decide
  · have h3 : j < 6 := h2
    omega

theorem witness_XaddrReadsPopulatedRangeOnly :
    (addressed 3).writePosition.toNat ≤ Config.C ∧
    SameRegs (addressed 3) (holding 3 0 [0x37, 0x02, 0x04]) ∧ SameOut (addressed 3) (holding 3 0 [0x37, 0x02, 0x04]) ∧
    (∀ i, i < (addressed 3).writePosition.toNat →
      bufByte (holding 3 0 [0x37, 0x02, 0x04]) i = bufByte (addressed 3) i) ∧
    ∃ t, exec (.xaddr 1 0 8) (addressed 3) = .next t := by
  refine ⟨by decide, ⟨rfl, rfl, rfl⟩, fun _ => rfl, fun i hi => ?_, ?_⟩
  · have h3 : i < 3 := hi
    rcases (show i = 0 ∨ i = 1 ∨ i = 2 by omega) with rfl | rfl | rfl <;> rfl
  · exact (exists_of_nextHas (p := fun _ => true) (by decide)).imp fun _ h => h.1

theorem witness_XcsumReadsPositionalPair : (509 : Operand).toNat + 2 < Config.C ∧ Config.C ≤ (510 : Operand).toNat + 2 := by
  decide

theorem witness_StaleBytesStayReadable :
    (∃ c, exec .clear (readyState 81) = .next c) ∧ ∃ t, exec (.xcsum 0) (readyState 81) = .next t :=
  ⟨⟨_, rfl⟩, _, rfl⟩

theorem witness_ExtractionsAreIndependent :
    (∀ i ∈ [Instr.xtel 512], isExtraction i = true) ∧ isExtraction (.xcsum 77) = true ∧
    (∃ rs t, runOps [.xtel 512] (readyState 81) = .next (rs, t)) ∧
    ∃ u, exec (.xcsum 77) (readyState 81) = .next u := by
  obtain ⟨t, ht, -⟩ := exists_of_nextHas (o := exec (.xtel 512) (readyState 81)) (p := fun _ => true) (by decide)
  exact ⟨by decide, rfl, ⟨[t.result], t, by rw [runOps, ht]; rfl⟩, _, rfl⟩

theorem witness_WritePermissions :
    (∃ t, exec (.xtel 512) (readyState 81) = .next t) ∧ (∃ t, exec .clear (accState 5 true) = .next t) ∧
    (∃ t, exec (.reservedOp 0x05) State.reset = .next t) ∧ (∃ t, exec .start State.reset = .next t) ∧
    (∃ t, exec (.xaddr 1 0 8) (addressed 6) = .next t) ∧ ScanTakes (addressed 6) 1 3 :=
  ⟨(exists_of_nextHas (p := fun _ => true) (by decide)).imp fun _ h => h.1, ⟨_, rfl⟩, ⟨_, rfl⟩, ⟨_, rfl⟩,
    (exists_of_nextHas (p := fun _ => true) (by decide)).imp fun _ h => h.1,
    witness_XaddrScansAddressField.2.2.2.2.1⟩

theorem witness_FaultWritesNothing :
    nextHas (exec (.xtel 79) (readyState 81)) (fun t => t.result == .fault (.outBufferTooSmall 80 79)) = true := by
  decide

theorem witness_FaultsRaisedExactlyWhen :
    (addressed 6).writePosition.toNat ≤ Config.C ∧
    nextHas (exec (.xaddr 1 6 8) (addressed 6)) (fun t => t.result == .fault (.outBufferTooSmall 9 8)) = true := by
  decide

theorem witness_ReservedOpRaisesIllegalOperation :
    5 ≤ ((0x05000000000000 : CmdWord).extractLsb' 48 8).toNat ∧
    5 ≤ ((0xFFFFFFFFFFFFFF : CmdWord).extractLsb' 48 8).toNat := by decide

theorem witness_OutIsNeverRead : ∃ t, exec (.xtel 512) (readyState 81) = .next t :=
  (exists_of_nextHas (p := fun _ => true) (by decide)).imp fun _ h => h.1

theorem witness_StoreOutsideBufferStops :
    fedByte (.data 0x41) = some 0x41 ∧ ready (regs 513 0 false) = false ∧
    Config.C < (regs 513 0 false).writePosition.toNat ∧ (0x41 : Byte) ≠ 0xDB := by decide

end Sys2Proof.Tests
end

/-! PROOFS. Family 10_state: what an operation that ends in a fault leaves, and the state after reset. -/

namespace Sys2Proof.Machine

/-! ### How each operation ends, said once -/

theorem answer_eq_next {r : Result} {s t : State} (h : answer r s = .next t) : t = setResult r s := by
  cases h; rfl

/-- A `raise` changes the result and nothing else (R27). -/
theorem raiseFault_eq_next {f : OpFault} {s t : State} (h : raiseFault f s = .next t) :
    t = setResult (.fault f) s := answer_eq_next h

theorem exec_clear_eq_next {s t : State} (h : exec .clear s = .next t) :
    t = setResult .cleared (clearBlock s) := answer_eq_next h

/-- FEED, in any spelling, returns its two bits (R16, R65). -/
theorem exec_feed_result {i : Instr} {b : Byte} {s t : State} (hf : fedByte i = some b) (h : exec i s = .next t) :
    ∃ complete overflow, t.result = .fed complete overflow := by
  obtain ⟨-, -, rfl⟩ | ⟨-, -, rfl⟩ | ⟨-, -, -, -, rfl⟩ | ⟨-, -, -, rfl⟩ | ⟨-, -, -, rfl⟩ :=
    exec_feed_cases hf h <;> exact ⟨_, _, rfl⟩

/-- All that XTEL can do, if it answers a next state (R91). -/
theorem exec_xtel_cases {cap : Operand} {s t : State} (h : exec (.xtel cap) s = .next t) :
    (ready s = false ∧ t = setResult (.count 0) s) ∨
    (ready s = true ∧ cap.toNat < s.frameLength.toNat - 1 ∧
      t = setResult (.fault (.outBufferTooSmall (s.frameLength.toNat - 1) cap)) s) ∨
    (ready s = true ∧ s.frameLength.toNat - 1 ≤ cap.toNat ∧
      ∃ bs : List Byte, bs.length = s.frameLength.toNat - 1 ∧
        (∀ k, k < s.frameLength.toNat - 1 → bs[k]? = some (bufByte s (0 + k))) ∧
        t = setResult (.count (s.frameLength.toNat - 1)) (deliver 0 bs s)) := by
  simp only [exec, execXtel] at h
  split at h
  · next hr =>
    split at h
    · next hcap => exact .inr (.inl ⟨hr, hcap, raiseFault_eq_next h⟩)
    · next hcap => exact .inr (.inr ⟨hr, Nat.le_of_not_lt hcap, copyOut_eq_next h⟩)
  · next hr => exact .inl ⟨eq_false_of_ne_true hr, answer_eq_next h⟩

/-- All that XADDR can do, if it answers a next state, whatever `write_position` is (R93). -/
theorem exec_xaddr_cases {a b c : Operand} {s t : State} (h : exec (.xaddr a b c) s = .next t) :
    ∃ n found, scanField s a.toNat (s.writePosition.toNat - a.toNat) = .ok (n, found) ∧
      ((0 < n ∧ c.toNat < b.toNat + n ∧ t = setResult (.fault (.outBufferTooSmall (b.toNat + n) c)) s) ∨
       (¬ (0 < n ∧ c.toNat < b.toNat + n) ∧
         ∃ bs : List Byte, bs.length = n ∧ (∀ k, k < n → bs[k]? = some (bufByte s (a.toNat + k))) ∧
           t = setResult (.count (if found then n else 0)) (deliver b.toNat bs s))) := by
  simp only [exec, execXaddr] at h
  split at h
  · cases h
  · next n found hscan =>
    refine ⟨n, found, hscan, ?_⟩
    split at h
    · next hsmall => exact .inl ⟨hsmall.1, hsmall.2, raiseFault_eq_next h⟩
    · next hfits => exact .inr ⟨hfits, copyOut_eq_next h⟩

/-- All that XCSUM can do, if it answers a next state (R96). -/
theorem exec_xcsum_cases {p : Operand} {s t : State} (h : exec (.xcsum p) s = .next t) :
    (Config.C ≤ p.toNat + 2 ∧ t = setResult (.fault (.positionOutOfRange p)) s) ∨
    (p.toNat + 2 < Config.C ∧
      t = setResult (.checksum (composeChecksum (bufByte s (p.toNat + 1)) (bufByte s (p.toNat + 2)))) s) := by
  simp only [exec, execXcsum] at h
  split at h
  · next hout => exact .inl ⟨hout, raiseFault_eq_next h⟩
  · next hin => exact .inr ⟨Nat.lt_of_not_le hin, answer_eq_next h⟩

theorem exec_reservedOp_eq_next {op : Byte} {s t : State} (h : exec (.reservedOp op) s = .next t) :
    t = setResult (.fault (.illegalOperation op)) s := raiseFault_eq_next h

/-! ### What a fault leaves -/

/-- Every arm that returns a fault has left the state it started from, but for the result (R27, R126): the arms
that write (CLEAR, FEED, a copy to OUT) return no fault. -/
theorem exec_eq_of_fault {i : Instr} {s t : State} {f : OpFault} (h : exec i s = .next t)
    (hf : t.result = .fault f) : t = setResult (.fault f) s := by
  have raised {g : OpFault} (ht : t = setResult (.fault g) s) : t = setResult (.fault f) s := by
    rw [ht, setResult_result] at hf
    rw [ht, hf]
  cases hfed : fedByte i with
  | some b =>
    obtain ⟨complete, overflow, hr⟩ := exec_feed_result hfed h
    cases hr.symm.trans hf
  | none =>
    cases i <;> simp only [fedByte, reduceCtorEq] at hfed
    case clear => rw [exec_clear_eq_next h] at hf; cases hf
    case xtel cap =>
      obtain ⟨-, rfl⟩ | ⟨-, -, ht⟩ | ⟨-, -, bs, -, -, rfl⟩ := exec_xtel_cases h
      · cases hf
      · exact raised ht
      · cases hf
    case xaddr a b c =>
      obtain ⟨n, found, -, ⟨-, -, ht⟩ | ⟨-, bs, -, -, rfl⟩⟩ := exec_xaddr_cases h
      · exact raised ht
      · cases hf
    case xcsum p =>
      obtain ⟨-, ht⟩ | ⟨-, rfl⟩ := exec_xcsum_cases h
      · exact raised ht
      · cases hf
    case reservedOp op => exact raised (exec_reservedOp_eq_next h)

/-- Settles O49: a fault is the result, and the state is otherwise the one the operation started from. -/
theorem faultWritesNothing : Obligations.FaultWritesNothing := by
  intro i s t f h hf
  rw [exec_eq_of_fault h hf]
  exact ⟨⟨rfl, rfl, rfl⟩, rfl, rfl, rfl, rfl⟩

/-! ### The state after reset -/

/-- A byte that no FEED has stored since reset is the free value of the draw in force (R23). -/
theorem bufByte_of_unstored {s : State} {i : Nat} (h : Memory.read s.buf i = none) :
    bufByte s i = Config.resetByte s.resetDraw i := by
  rw [bufByte, h, Option.getD_none]

/-- Settles O10: the reset state's registers are 0/false, and nothing is stored in its BUF. -/
theorem resetLeavesRegistersClear : Obligations.ResetLeavesRegistersClear :=
  ⟨rfl, rfl, rfl, not_ready_of_idle rfl, (idle_iff State.reset).2 rfl, fun _ => bufByte_of_unstored rfl⟩

end Sys2Proof.Machine

/-! PROOFS. Family 30_encoding: the decoder of command words and octets, the reserved codes, the escape decoder. -/

namespace Sys2Proof

/-! ### A command word by its `op` (R51 to R53) -/

theorem decodeCmd_of_opCLEAR {w : CmdWord} (h : opField w = opCLEAR) : decodeCmd w = .clear := if_pos h

theorem decodeCmd_of_opFEED {w : CmdWord} (h : opField w = opFEED) : decodeCmd w = .feed (byteField w) := by
  simp [decodeCmd, h, show opFEED ≠ opCLEAR by decide]

theorem decodeCmd_of_opXTEL {w : CmdWord} (h : opField w = opXTEL) : decodeCmd w = .xtel (cField w) := by
  simp [decodeCmd, h, show opXTEL ≠ opCLEAR by decide, show opXTEL ≠ opFEED by decide]

theorem decodeCmd_of_opXADDR {w : CmdWord} (h : opField w = opXADDR) :
    decodeCmd w = .xaddr (aField w) (b16Field w) (cField w) := by
  simp [decodeCmd, h, show opXADDR ≠ opCLEAR by decide, show opXADDR ≠ opFEED by decide,
    show opXADDR ≠ opXTEL by decide]

theorem decodeCmd_of_opXCSUM {w : CmdWord} (h : opField w = opXCSUM) : decodeCmd w = .xcsum (aField w) := by
  simp [decodeCmd, h, show opXCSUM ≠ opCLEAR by decide, show opXCSUM ≠ opFEED by decide,
    show opXCSUM ≠ opXTEL by decide, show opXCSUM ≠ opXADDR by decide]

/-- A code from `0x05` on is none of the five operations (R53). -/
theorem decodeCmd_of_reserved {w : CmdWord} (h : 5 ≤ (opField w).toNat) : decodeCmd w = .reservedOp (opField w) := by
  have hne {op : Byte} (hop : op.toNat < 5) : opField w ≠ op := by
    rintro rfl
    exact absurd hop (Nat.not_lt.2 h)
  rw [decodeCmd, if_neg (hne (by decide)), if_neg (hne (by decide)), if_neg (hne (by decide)),
    if_neg (hne (by decide)), if_neg (hne (by decide))]

/-- Settles O4: one clause for each value of `op`. -/
theorem cmdWordDecodesByOp : Obligations.CmdWordDecodesByOp := fun _ =>
  ⟨decodeCmd_of_opCLEAR, decodeCmd_of_opFEED, decodeCmd_of_opXTEL, decodeCmd_of_opXADDR, decodeCmd_of_opXCSUM,
    decodeCmd_of_reserved⟩

/-! ### An octet by its value (R46) -/

/-- An octet that is none of the five named values is class DATA. -/
theorem decodeByte_of_not_named {b : Byte} (h : b ∉ Config.namedBytes) : decodeByte b = .data b := by
  simp only [Config.namedBytes, List.mem_cons, List.not_mem_nil, or_false, not_or] at h
  obtain ⟨hstart, hend, hesc, hescEnd, hescEsc⟩ := h
  rw [decodeByte, if_neg hstart, if_neg hend, if_neg hesc, if_neg hescEnd, if_neg hescEsc]

/-- Settles O5: the five named values by evaluation, every other octet by exclusion. -/
theorem octetClasses : Obligations.OctetClasses :=
  ⟨rfl, rfl, rfl, rfl, rfl, fun _ => decodeByte_of_not_named⟩

namespace Machine

/-! ### The reserved operation codes (R53) -/

/-- Returning a value changes the result and nothing else. -/
theorem sameAllButResult_setResult (r : Result) (s : State) : SameAllButResult s (setResult r s) :=
  ⟨⟨rfl, rfl, rfl⟩, fun _ => rfl, fun _ => rfl, rfl, rfl⟩

/-- Settles O51: the code decodes to RESERVED_OP, which raises, and a `raise` only sets the result. -/
theorem reservedOpRaisesIllegalOperation : Obligations.ReservedOpRaisesIllegalOperation := fun w s h =>
  ⟨decodeCmd_of_reserved h, setResult (.fault (.illegalOperation (opField w))) s, rfl, rfl,
    sameAllButResult_setResult _ s⟩

/-! ### The escape decoder over two FEEDs (R49) -/

/-- The byte that is stored for `x` after an introducer (R49, R55). -/
def unescape (x : Byte) : Byte :=
  if x = Config.ESC_END then Config.END else if x = Config.ESC_ESC then Config.ESC else x

theorem unescape_of_code {x : Byte} (h : isEscapeCode x = true) : unescape x = escapedLiteral x := by
  obtain rfl | rfl : x = Config.ESC_END ∨ x = Config.ESC_ESC := by simpa [isEscapeCode] using h
  · rfl
  · rfl

theorem unescape_of_not_code {x : Byte} (h : isEscapeCode x = false) : unescape x = x := by
  obtain ⟨hend, hesc⟩ : x ≠ Config.ESC_END ∧ x ≠ Config.ESC_ESC := by simpa [isEscapeCode] using h
  rw [unescape, if_neg hend, if_neg hesc]

theorem appendIndex_eq (s : State) :
    appendIndex s = if s.writePosition.toNat = Config.C then 0 else s.writePosition.toNat := by
  split
  · next hfull => exact appendIndex_of_full hfull
  · next hroom => exact appendIndex_of_ne hroom

@[simp] theorem appendIndex_setEscape (e : Bool) (s : State) : appendIndex (setEscape e s) = appendIndex s := by
  rw [appendIndex_eq, appendIndex_eq, setEscape_writePosition]

/-- `u` is `s` after one guarded store of `v` (R76), with no escape pending any more. -/
def StoredNext (s u : State) (v : Byte) : Prop :=
  u.escapePending = false ∧ u.writePosition.toNat = appendIndex s + 1 ∧ StoredAt s u (appendIndex s) v

theorem storedNext_pushByte (v : Byte) {s : State} (h : appendIndex s < Config.C) :
    StoredNext s (pushByte v (makeRoom (setEscape false s))) v := by
  have hk : (makeRoom (setEscape false s)).writePosition.toNat = appendIndex s := appendIndex_setEscape false s
  refine ⟨?_, ?_, ?_, fun j hj => ?_⟩
  · rw [pushByte_escapePending, makeRoom]
    split <;> rfl
  · rw [pushByte_writePosition_toNat v (by rwa [hk]), hk]
  · rw [bufByte_pushByte, hk, if_pos rfl]
  · rw [bufByte_pushByte, hk, if_neg hj, bufByte_makeRoom, bufByte_setEscape]

/-- Neither the completion nor the result changes what was stored. -/
theorem StoredNext.markComplete {s u : State} {v : Byte} (h : StoredNext s u v) :
    StoredNext s (Machine.markComplete u) v := h

theorem StoredNext.setResult {s u : State} {v : Byte} (h : StoredNext s u v) (r : Result) :
    StoredNext s (Machine.setResult r u) v := h

/-- Inside a frame and after an introducer, a FEED of any byte but ESC stores the byte it stands for (R72 to R74,
R76). -/
theorem feedByte_storedNext_of_escape {x : Byte} {s : State} (hw : s.writePosition.toNat ≤ Config.C)
    (hm : mode s = .accumulating) (he : s.escapePending = true) (hx : x ≠ Config.ESC) :
    ∃ t, feedByte x s = .next t ∧ StoredNext s t (unescape x) := by
  obtain ⟨hi, hr⟩ := (mode_accumulating_iff s).1 hm
  have hlt : appendIndex s < Config.C := appendIndex_lt hw
  have hs : appendIndex (setEscape false s) < Config.C := by rwa [appendIndex_setEscape]
  rw [feedByte, release_of_not_ready hr]
  cases hc : isEscapeCode x with
  | true =>
    rw [unescape_of_code hc, feedReleased_escaped hi he hc hs]
    exact ⟨_, rfl, (storedNext_pushByte _ hlt).setResult _⟩
  | false =>
    have ho : isOrdinary x s := ⟨fun h => absurd h (by simp [hi]), hx, fun _ => hc⟩
    rw [unescape_of_not_code hc, feedReleased_ordinary ho hs]
    split
    · exact ⟨_, rfl, (storedNext_pushByte _ hlt).markComplete.setResult _⟩
    · exact ⟨_, rfl, (storedNext_pushByte _ hlt).setResult _⟩

/-- Settles O27: the introducer only sets `escape_pending`, and the next FEED stores what `x` stands for. -/
theorem escapeSequenceStoresOneByte : Obligations.EscapeSequenceStoresOneByte := by
  intro s x hinv hm hx
  obtain ⟨hi, hr⟩ := (mode_accumulating_iff s).1 hm
  have hesc : exec (.feed Config.ESC) s = .next (setResult (.fed false false) (setEscape true s)) := by
    rw [exec_of_fedByte rfl, feedByte, release_of_not_ready hr, feedReleased_esc hi]
  obtain ⟨t, hfeed, hpending, hwp, hstored⟩ :=
    feedByte_storedNext_of_escape (s := setEscape true s) hinv.writePosition_le hm rfl hx
  have hexec : exec (.feed x) (setResult (.fed false false) (setEscape true s)) = .next t := by
    rw [exec_of_fedByte rfl, feedByte_setResult, hfeed]
  rw [appendIndex_setEscape] at hwp hstored
  exact ⟨_, t, runOps_cons hesc (runOps_single hexec), hpending, appendIndex s, appendIndex_eq s, hwp, hstored⟩

end Machine

end Sys2Proof

/-! PROOFS. Family 40_clear_feed: CLEAR, the rows of FEED, when FEED completes or overflows, what FEED depends on. -/

namespace Sys2Proof.Machine

/-! ### CLEAR (R66) -/

theorem exec_clear (s : State) : exec .clear s = .next (setResult .cleared (clearBlock s)) := rfl

/-- Settles O16: CLEAR is `clearBlock`, which sets the three registers and nothing else, so it is idempotent. -/
theorem clearResetsRegistersKeepsBuffer : Obligations.ClearResetsRegistersKeepsBuffer := fun s =>
  ⟨_, exec_clear s, rfl, rfl, rfl, bufByte_clearBlock s, fun _ => rfl, ⟨rfl, rfl⟩, ready_clearBlock s,
    idle_clearBlock s, rfl, exec_clear _⟩

/-! ### The ways through FEED after the release (R69 to R76) -/

/-- Every byte is discarded, an introducer, an escaped code, or stored as it is. -/
theorem feed_class (b : Byte) (s : State) :
    (idle s = true ∧ b ≠ Config.START) ∨ (idle s = false ∧ b = Config.ESC) ∨
    (idle s = false ∧ s.escapePending = true ∧ isEscapeCode b = true) ∨ isOrdinary b s := by
  cases hi : idle s with
  | true =>
    by_cases hb : b = Config.START
    · subst hb
      exact .inr (.inr (.inr ⟨fun _ => rfl, by decide, fun _ => rfl⟩))
    · exact .inl ⟨rfl, hb⟩
  | false =>
    by_cases hb : b = Config.ESC
    · exact .inr (.inl ⟨rfl, hb⟩)
    by_cases hc : s.escapePending = true ∧ isEscapeCode b = true
    · exact .inr (.inr (.inl ⟨rfl, hc⟩))
    · exact .inr (.inr (.inr ⟨by simp [hi], hb, by simpa using hc⟩))

theorem not_esc_of_isEscapeCode {b : Byte} (h : isEscapeCode b = true) : b ≠ Config.ESC := by
  rintro rfl
  exact absurd h (by decide)

/-! ### What a FEED leaves, one rule for each way it can end -/

theorem feedGives_of_setResult {i : Instr} {b : Byte} {s : State} (hf : fedByte i = some b)
    (h : feedByte b s = .next (setResult (.fed false false) s)) :
    FeedGives i s s.writePosition.toNat s.frameLength.toNat s.escapePending none false false :=
  ⟨_, (exec_of_fedByte hf s).trans h, rfl, rfl, rfl, fun _ => rfl, fun _ => rfl, ⟨rfl, rfl⟩, rfl⟩

theorem feedGives_of_setEscape {i : Instr} {b : Byte} {s : State} (hf : fedByte i = some b)
    (h : feedByte b s = .next (setResult (.fed false false) (setEscape true s))) :
    FeedGives i s s.writePosition.toNat s.frameLength.toNat true none false false :=
  ⟨_, (exec_of_fedByte hf s).trans h, rfl, rfl, rfl, fun _ => rfl, fun _ => rfl, ⟨rfl, rfl⟩, rfl⟩

theorem feedGives_of_push {i : Instr} {b v : Byte} {s : State} (hf : fedByte i = some b)
    (hlt : s.writePosition.toNat < Config.C)
    (h : feedByte b s = .next (setResult (.fed false false) (pushByte v (setEscape false s)))) :
    FeedGives i s (s.writePosition.toNat + 1) s.frameLength.toNat false (some (s.writePosition.toNat, v))
      false false :=
  ⟨_, (exec_of_fedByte hf s).trans h, ptr_succ_toNat hlt, rfl, rfl, storedAt_push v s _, fun _ => rfl, ⟨rfl, rfl⟩,
    rfl⟩

theorem feedGives_of_complete {i : Instr} {b v : Byte} {s : State} (hf : fedByte i = some b)
    (hlt : s.writePosition.toNat < Config.C)
    (h : feedByte b s = .next (setResult (.fed true false) (markComplete (pushByte v (setEscape false s))))) :
    FeedGives i s (s.writePosition.toNat + 1) (s.writePosition.toNat + 1) false
      (some (s.writePosition.toNat, v)) true false :=
  ⟨_, (exec_of_fedByte hf s).trans h, ptr_succ_toNat hlt, ptr_succ_toNat hlt, rfl,
    storedAt_push v s (.fed true false), fun _ => rfl, ⟨rfl, rfl⟩, rfl⟩

theorem feedGives_of_overflow {i : Instr} {b v : Byte} {s : State} (hf : fedByte i = some b)
    (h : feedByte b s = .next (setResult (.fed false true) (pushByte v (clearBlock (setEscape false s))))) :
    FeedGives i s 1 0 false (some (0, v)) false true :=
  ⟨_, (exec_of_fedByte hf s).trans h, rfl, rfl, rfl, storedAt_push_cleared v s _, fun _ => rfl, ⟨rfl, rfl⟩, rfl⟩

/-! ### The idle test and the release (R68, R69) -/

theorem start_ne_end : Config.START ≠ Config.END := by decide

/-- Settles O18: an Idle block holds no frame to release; START is an ordinary byte there, any other is
discarded. -/
theorem feedIdleTest : Obligations.FeedIdleTest := by
  intro i b s hf hw
  have hr : ready s = false := not_ready_of_idle hw
  have hz : s.writePosition.toNat = 0 := (ptr_eq_zero_iff _).1 hw
  constructor
  · intro hb
    have hdiscard : feedByte b s = .next (setResult (.fed false false) s) := by
      rw [feedByte, release_of_not_ready hr, feedReleased_discard ((idle_iff s).2 hw) hb]
    have hrow := feedGives_of_setResult hf hdiscard
    rwa [hz] at hrow
  · rintro rfl
    have ho : isOrdinary Config.START s := ⟨fun _ => rfl, by decide, fun _ => rfl⟩
    have hlt : s.writePosition.toNat < Config.C := by rw [hz]; decide
    have hrow := feedGives_of_push hf hlt ((feedByte_ordinary_of_lt hr ho hlt).trans (if_neg (start_ne_end ·.1)))
    rwa [hz] at hrow

/-- In FrameReady, FEED does what it does from the state CLEAR leaves (R68). -/
theorem exec_feed_of_ready {i : Instr} {b : Byte} {s : State} (hf : fedByte i = some b) (hr : ready s = true) :
    exec i s = exec i (clearBlock s) := by
  rw [exec_of_fedByte hf, exec_of_fedByte hf, feedByte, feedByte, release_of_ready hr,
    release_of_not_ready (ready_clearBlock s)]

/-- A row from the cleared state is a row from the state itself: CLEAR touches neither BUF nor OUT (R20). -/
theorem feedGives_of_clearBlock {i : Instr} {s : State} {wp fl : Nat} {esc : Bool} {store : Option (Nat × Byte)}
    {complete overflow : Bool} (hexec : exec i s = exec i (clearBlock s))
    (h : FeedGives i (clearBlock s) wp fl esc store complete overflow) :
    FeedGives i s wp fl esc store complete overflow := by
  obtain ⟨t, ht, hleft⟩ := h
  exact ⟨t, hexec.trans ht, hleft⟩

/-- Settles O17: the release is a CLEAR, and the cleared state is Idle, where the idle test decides. -/
theorem feedReleasesCompleteFrame : Obligations.FeedReleasesCompleteFrame := by
  intro i b s hf hr
  have hexec := exec_feed_of_ready hf hr
  obtain ⟨hdiscard, hstart⟩ := feedIdleTest i b (clearBlock s) hf rfl
  refine ⟨fun c hc => ?_, fun hb => feedGives_of_clearBlock hexec (hstart hb),
    fun hb => feedGives_of_clearBlock hexec (hdiscard hb)⟩
  rw [exec_clear_eq_next hc, exec_setResult, hexec]

/-! ### Escapes (R70, R72, R73) -/

theorem idle_eq_false_of_ne {s : State} (h : s.writePosition ≠ 0) : idle s = false :=
  eq_false_of_ne_true fun hi => h ((idle_iff s).1 hi)

/-- Settles O19: inside a frame an ESC reaches step 2, which only sets `escape_pending`. -/
theorem feedEscapeIntroducer : Obligations.FeedEscapeIntroducer := by
  intro i s hf hr hw
  refine feedGives_of_setEscape hf ?_
  rw [feedByte, release_of_not_ready hr]
  exact feedReleased_esc (idle_eq_false_of_ne hw)

/-- An escape code under a pending escape stores its literal, with room and at a full buffer. -/
theorem feedGives_escaped {i : Instr} {b : Byte} {s : State} (hf : fedByte i = some b) (hc : isEscapeCode b = true)
    (hr : ready s = false) (hw : s.writePosition ≠ 0) (he : s.escapePending = true) :
    (s.writePosition.toNat < Config.C →
      FeedGives i s (s.writePosition.toNat + 1) s.frameLength.toNat false
        (some (s.writePosition.toNat, escapedLiteral b)) false false) ∧
    (s.writePosition.toNat = Config.C → FeedGives i s 1 0 false (some (0, escapedLiteral b)) false true) := by
  have hi := idle_eq_false_of_ne hw
  exact ⟨fun hlt => feedGives_of_push hf hlt (feedByte_escaped_of_lt hr hi he hc hlt),
    fun hfull => feedGives_of_overflow hf (feedByte_escaped_of_full hr hi he hc hfull)⟩

/-- Settles O20: the literal of ESC_END is END. -/
theorem feedEscapedEndMarker : Obligations.FeedEscapedEndMarker := fun _ _ hf =>
  feedGives_escaped hf (by decide)

/-- Settles O21: the literal of ESC_ESC is ESC. -/
theorem feedEscapedIntroducer : Obligations.FeedEscapedIntroducer := fun _ _ hf =>
  feedGives_escaped hf (by decide)

/-! ### Completion (R75) -/

/-- Settles O23: END is no escape code, so it is stored as an ordinary byte; and of the ways a FEED can end only
the one through `markComplete` returns `complete`. -/
theorem feedCompletesFrame : Obligations.FeedCompletesFrame := by
  constructor
  · intro i s hf hr hw hlt
    have ho : isOrdinary Config.END s :=
      isOrdinary_of_not_idle (idle_eq_false_of_ne hw) (by decide) (fun _ => by decide)
    have hfeed := feedByte_ordinary_of_lt hr ho hlt
    exact ⟨fun hfloor => feedGives_of_complete hf hlt (hfeed.trans (if_pos ⟨rfl, hfloor⟩)),
      fun hshort => feedGives_of_push hf hlt (hfeed.trans (if_neg fun h => Nat.not_lt.2 hshort h.2))⟩
  · intro i b s t o hf h hres
    obtain ⟨-, -, rfl⟩ | ⟨-, -, rfl⟩ | ⟨-, -, -, -, rfl⟩ | ⟨-, -, hcomp, rfl⟩ | ⟨-, -, -, rfl⟩ :=
      exec_feed_cases hf h
    case inr.inr.inr.inl =>
      obtain ⟨hb, hfloor⟩ := (completes_iff _ _).1 hcomp
      exact ⟨hb, hfloor, rfl, (ready_iff _).2 ⟨Nat.zero_lt_of_lt hfloor, rfl⟩⟩
    all_goals cases hres

/-! ### Overflow (R76) -/

/-- At a full buffer every byte but ESC goes to index 0: under an escape the byte it stands for, else itself. -/
theorem feedGives_full {i : Instr} {b : Byte} {s : State} (hf : fedByte i = some b) (hr : ready s = false)
    (hfull : s.writePosition.toNat = Config.C) (hb : b ≠ Config.ESC) :
    FeedGives i s 1 0 false (some (0, if s.escapePending then unescape b else b)) false true := by
  have hi : idle s = false := idle_eq_false_of_pos (by rw [hfull]; decide)
  have ordinary (h : s.escapePending = true → isEscapeCode b = false) :
      FeedGives i s 1 0 false (some (0, b)) false true :=
    feedGives_of_overflow hf (feedByte_ordinary_of_full hr ⟨by simp [hi], hb, h⟩ hfull)
  cases he : s.escapePending with
  | false => exact ordinary (by simp [he])
  | true =>
    cases hc : isEscapeCode b with
    | false =>
      rw [if_pos rfl, unescape_of_not_code hc]
      exact ordinary fun _ => hc
    | true =>
      rw [if_pos rfl, unescape_of_code hc]
      exact feedGives_of_overflow hf (feedByte_escaped_of_full hr hi he hc hfull)

@[simp] theorem atCapacity_clearBlock (s : State) : atCapacity (clearBlock s) = false := rfl

/-- A state that is full after the release was full before it, and held no complete frame. -/
theorem full_of_atCapacity_release {s : State} (h : atCapacity (release s) = true) :
    s.writePosition.toNat = Config.C ∧ ready s = false := by
  cases hr : ready s with
  | false =>
    rw [release_of_not_ready hr] at h
    exact ⟨(atCapacity_iff s).1 h, rfl⟩
  | true =>
    rw [release_of_ready hr, atCapacity_clearBlock] at h
    cases h

/-- Settles O24: a full buffer makes every byte but ESC overflow; and only the ways that store return the overflow
bit, which is `atCapacity` after the release. -/
theorem feedOverflowReset : Obligations.FeedOverflowReset := by
  constructor
  · intro i b s hf hr hfull hb
    have hrow := feedGives_full hf hr hfull hb
    cases he : s.escapePending with
    | false =>
      simp only [he, reduceCtorEq, false_and, if_false] at hrow ⊢
      exact hrow
    | true =>
      simp only [he, true_and, if_true] at hrow ⊢
      exact hrow
  · intro i b s t c hf h hres
    obtain ⟨-, -, rfl⟩ | ⟨-, -, rfl⟩ | ⟨-, -, hc, -, rfl⟩ | ⟨⟨-, hb, -⟩, -, -, rfl⟩ |
      ⟨⟨-, hb, -⟩, -, -, rfl⟩ := exec_feed_cases hf h
    · cases hres
    · cases hres
    all_goals
      rw [setResult_result, Result.fed.injEq] at hres
      obtain ⟨hfull, hr⟩ := full_of_atCapacity_release hres.2
    · exact ⟨hfull, hr, not_esc_of_isEscapeCode hc⟩
    · exact ⟨hfull, hr, hb⟩
    · exact ⟨hfull, hr, hb⟩

/-! ### FEED depends on its byte and the registers (R78) -/

section SameRegs

variable {s s' : State} (h : SameRegs s s')
include h

theorem sameRegs_idle : idle s' = idle s := idle_congr h.1

theorem sameRegs_atCapacity : atCapacity s' = atCapacity s := by simp only [atCapacity, h.1]

theorem sameRegs_completes (b : Byte) : completes b s' = completes b s := by simp only [completes, h.1]

theorem sameRegs_appendIndex : appendIndex s' = appendIndex s := by rw [appendIndex_eq, appendIndex_eq, h.1]

theorem sameRegs_isOrdinary {b : Byte} (ho : isOrdinary b s) : isOrdinary b s' := by
  rwa [isOrdinary, sameRegs_idle h, h.2.2]

theorem sameRegs_release : SameRegs (release s) (release s') := by
  unfold release
  rw [ready_congr h.1 h.2.1]
  split
  · exact ⟨rfl, rfl, rfl⟩
  · exact h

theorem sameRegs_makeRoom : SameRegs (makeRoom s) (makeRoom s') := by
  unfold makeRoom
  rw [sameRegs_atCapacity h]
  split
  · exact ⟨rfl, rfl, rfl⟩
  · exact h

theorem sameRegs_setEscape (e : Bool) : SameRegs (setEscape e s) (setEscape e s') := ⟨h.1, h.2.1, rfl⟩

theorem sameRegs_pushByte (v : Byte) : SameRegs (pushByte v s) (pushByte v s') :=
  ⟨congrArg (· + 1) h.1, h.2.1, h.2.2⟩

theorem sameRegs_setResult (r : Result) : SameRegs (setResult r s) (setResult r s') := h

theorem sameRegs_markComplete : SameRegs (markComplete s) (markComplete s') := ⟨h.1, h.1, h.2.2⟩

/-- The guarded store of a FEED, from two states with the same registers. -/
theorem sameRegs_store (v : Byte) :
    SameRegs (pushByte v (makeRoom (setEscape false s))) (pushByte v (makeRoom (setEscape false s'))) :=
  sameRegs_pushByte (sameRegs_makeRoom (sameRegs_setEscape h false)) v

/-- After the release, FEED goes the same way in both states. -/
theorem sameRegs_feedReleased {b : Byte} {t : State} (hfeed : feedReleased b s = .next t) :
    ∃ t', feedReleased b s' = .next t' ∧ SameRegs t t' ∧ t'.result = t.result := by
  have hidle := sameRegs_idle h
  have hcap := sameRegs_atCapacity h
  have hindex : appendIndex (setEscape false s') = appendIndex (setEscape false s) :=
    sameRegs_appendIndex (sameRegs_setEscape h false)
  obtain ⟨hi, hb, rfl⟩ | ⟨hi, rfl, rfl⟩ | ⟨hi, he, hc, hlt, rfl⟩ | ⟨ho, hlt, hcomp, rfl⟩ | ⟨ho, hlt, hcomp, rfl⟩ :=
    feedReleased_cases hfeed
  · exact ⟨_, feedReleased_discard (hidle.trans hi) hb, sameRegs_setResult h _, rfl⟩
  · exact ⟨_, feedReleased_esc (hidle.trans hi), sameRegs_setResult (sameRegs_setEscape h true) _, rfl⟩
  · rw [feedReleased_escaped (hidle.trans hi) (h.2.2.trans he) hc (hindex ▸ hlt), hcap]
    exact ⟨_, rfl, sameRegs_setResult (sameRegs_store h (escapedLiteral b)) _, rfl⟩
  all_goals
    rw [feedReleased_ordinary (sameRegs_isOrdinary h ho) (hindex ▸ hlt),
      sameRegs_completes (sameRegs_store h b), hcomp, hcap]
  · exact ⟨_, rfl, sameRegs_setResult (sameRegs_markComplete (sameRegs_store h b)) _, rfl⟩
  · exact ⟨_, rfl, sameRegs_setResult (sameRegs_store h b) _, rfl⟩

end SameRegs

/-- Settles O29: the release keeps the registers equal, and so does every way through FEED after it. -/
theorem feedNeverReadsBuffer : Obligations.FeedNeverReadsBuffer := by
  intro i b s s' t hf h hexec
  rw [exec_of_fedByte hf, feedByte] at hexec
  rw [exec_of_fedByte hf, feedByte]
  exact sameRegs_feedReleased (sameRegs_release h) hexec

/-! ### FEED is total (R54, R65) -/

theorem release_writePosition_le {s : State} (h : s.writePosition.toNat ≤ Config.C) :
    (release s).writePosition.toNat ≤ Config.C := by
  unfold release
  split
  · exact Nat.zero_le _
  · exact h

/-- Each way through FEED ends in a next state where a store fits. -/
theorem feedReleased_completes (b : Byte) {s : State} (h : s.writePosition.toNat ≤ Config.C) :
    ∃ t, feedReleased b s = .next t := by
  have hlt : appendIndex (setEscape false s) < Config.C := appendIndex_lt h
  obtain ⟨hi, hb⟩ | ⟨hi, rfl⟩ | ⟨hi, he, hc⟩ | ho := feed_class b s
  · exact ⟨_, feedReleased_discard hi hb⟩
  · exact ⟨_, feedReleased_esc hi⟩
  · exact ⟨_, feedReleased_escaped hi he hc hlt⟩
  · rw [feedReleased_ordinary ho hlt]
    split
    · exact ⟨_, rfl⟩
    · exact ⟨_, rfl⟩

theorem exec_feed_completes {i : Instr} {b : Byte} {s : State} (hf : fedByte i = some b)
    (h : s.writePosition.toNat ≤ Config.C) : ∃ t, exec i s = .next t := by
  rw [exec_of_fedByte hf]
  exact feedReleased_completes b (release_writePosition_le h)

/-- Settles O30: CLEAR and FEED complete, and return `cleared` or FEED's two bits. -/
theorem streamOperationsNeverFault : Obligations.StreamOperationsNeverFault := by
  rintro i s hw (rfl | ⟨b, hf⟩)
  · exact ⟨_, exec_clear s, fun _ => Result.noConfusion⟩
  · obtain ⟨t, ht⟩ := exec_feed_completes hf hw
    obtain ⟨complete, overflow, hres⟩ := exec_feed_result hf ht
    exact ⟨t, ht, fun _ => by simp [hres]⟩

end Sys2Proof.Machine

/-! PROOFS. Family 41_extract: XTEL, XADDR, XCSUM, what each reads, and what an extraction leaves. -/

namespace Sys2Proof.Machine

/-! ### What an extraction leaves -/

/-- Only OUT and the result may differ. -/
def SameBlock (s t : State) : Prop := SameRegs s t ∧ SameBuf s t ∧ SameOwn s t

theorem SameBlock.refl (s : State) : SameBlock s s := ⟨⟨rfl, rfl, rfl⟩, fun _ => rfl, rfl, rfl⟩

theorem SameBlock.trans {s t u : State} (h1 : SameBlock s t) (h2 : SameBlock t u) : SameBlock s u := by
  obtain ⟨⟨hw1, hl1, he1⟩, hb1, hd1, hq1⟩ := h1
  obtain ⟨⟨hw2, hl2, he2⟩, hb2, hd2, hq2⟩ := h2
  exact ⟨⟨hw2.trans hw1, hl2.trans hl1, he2.trans he1⟩, fun i => (hb2 i).trans (hb1 i), hd2.trans hd1, hq2.trans hq1⟩

theorem sameBlock_setResult (r : Result) (s : State) : SameBlock s (setResult r s) := SameBlock.refl s

theorem sameBlock_deliver (r : Result) (dst : Nat) (bs : List Byte) (s : State) :
    SameBlock s (setResult r (deliver dst bs s)) := SameBlock.refl s

/-- An extraction that answers leaves the registers, BUF and the model's own fields (R90). -/
theorem exec_extraction_sameBlock {i : Instr} {s t : State} (hi : isExtraction i = true) (h : exec i s = .next t) :
    SameBlock s t := by
  cases i <;> simp only [isExtraction, Bool.false_eq_true] at hi
  case xtel cap =>
    obtain ⟨-, rfl⟩ | ⟨-, -, rfl⟩ | ⟨-, -, bs, -, -, rfl⟩ := exec_xtel_cases h
    · exact sameBlock_setResult _ s
    · exact sameBlock_setResult _ s
    · exact sameBlock_deliver _ 0 bs s
  case xaddr a b c =>
    obtain ⟨n, found, -, ⟨-, -, rfl⟩ | ⟨-, bs, -, -, rfl⟩⟩ := exec_xaddr_cases h
    · exact sameBlock_setResult _ s
    · exact sameBlock_deliver _ _ _ s
  case xcsum p =>
    obtain ⟨-, rfl⟩ | ⟨-, rfl⟩ := exec_xcsum_cases h
    · exact sameBlock_setResult _ s
    · exact sameBlock_setResult _ s

theorem runOps_extractions_sameBlock {ops : List Instr} {s t : State} {rs : List Result}
    (hops : ∀ i ∈ ops, isExtraction i = true) (h : runOps ops s = .next (rs, t)) : SameBlock s t := by
  induction ops generalizing s rs with
  | nil => cases h; exact SameBlock.refl _
  | cons i is ih =>
    obtain ⟨u, rs', hexec, hrest, -⟩ := runOps_cons_eq_next h
    obtain ⟨hi, his⟩ := List.forall_mem_cons.1 hops
    exact (exec_extraction_sameBlock hi hexec).trans (ih his hrest)

/-! ### The copy into OUT (R41, R91, R93) -/

/-- A copy of a range inside BUF, or of nothing, delivers it, returns the count, and touches nothing else. -/
theorem copyOut_delivers (s : State) {src n : Nat} (dst count : Nat) (h : n = 0 ∨ src + n ≤ Config.C) :
    ∃ t, copyOut s src n dst count = .next t ∧ t.result = .count count ∧ DeliveredAt s t dst src n ∧
      SameBlock s t := by
  obtain ⟨t, ht⟩ := copyOut_completes (dst := dst) (count := count) h
  obtain ⟨bs, hlength, hbytes, rfl⟩ := copyOut_eq_next ht
  exact ⟨_, ht, rfl, deliveredAt_deliver _ hlength hbytes, sameBlock_deliver _ _ _ s⟩

/-! ### XTEL (R91) -/

theorem exec_xtel_of_not_ready (cap : Operand) {s : State} (hr : ready s = false) :
    exec (.xtel cap) s = .next (setResult (.count 0) s) := by
  simp [exec, execXtel, hr, answer]

theorem exec_xtel_of_room {cap : Operand} {s : State} (hr : ready s = true)
    (hcap : s.frameLength.toNat - 1 ≤ cap.toNat) :
    exec (.xtel cap) s = copyOut s 0 (s.frameLength.toNat - 1) 0 (s.frameLength.toNat - 1) := by
  simp [exec, execXtel, hr, Nat.not_lt.2 hcap]

theorem exec_xtel_of_no_room {cap : Operand} {s : State} (hr : ready s = true)
    (hcap : cap.toNat < s.frameLength.toNat - 1) :
    exec (.xtel cap) s = .next (setResult (.fault (.outBufferTooSmall (s.frameLength.toNat - 1) cap)) s) := by
  simp [exec, execXtel, hr, hcap, raiseFault, answer]

/-- A complete frame has its marker and at least `MINLEN` bytes before it (R110). -/
theorem frameLength_range_of_ready {s : State} (h : Inv s) (hr : ready s = true) :
    Config.MINLEN + 1 ≤ s.frameLength.toNat ∧ s.frameLength.toNat ≤ Config.C :=
  h.length_range.resolve_left (Nat.ne_of_gt ((ready_iff s).1 hr).1)

/-- The count XTEL returns is 0 exactly when no frame is available, and else a telegram's length. -/
theorem exec_xtel_count_range {cap : Operand} {s t : State} {n : Nat} (hinv : Inv s)
    (h : exec (.xtel cap) s = .next t) (hn : t.result = .count n) :
    (n = 0 ∨ (Config.MINLEN ≤ n ∧ n ≤ Config.C - 1)) ∧ (n = 0 ↔ ready s = false) := by
  obtain ⟨hr, rfl⟩ | ⟨-, -, rfl⟩ | ⟨hr, -, bs, -, -, rfl⟩ := exec_xtel_cases h
  · cases hn
    exact ⟨.inl rfl, fun _ => hr, fun _ => rfl⟩
  · cases hn
  · cases hn
    obtain ⟨hlow, hhigh⟩ := frameLength_range_of_ready hinv hr
    have hpos : 0 < Config.MINLEN := by decide
    have hne : s.frameLength.toNat - 1 ≠ 0 := by omega
    exact ⟨.inr ⟨by omega, by omega⟩, fun h0 => absurd h0 hne, fun hf => by rw [hr] at hf; cases hf⟩

/-- Settles O41: XTEL returns 0, copies or raises; what it copies lies inside BUF since `frame_length` is
`write_position` there. -/
theorem xtelCopiesTelegram : Obligations.XtelCopiesTelegram := by
  refine fun cap s => ⟨fun hr => ?_, fun hr hw hcap => ?_, fun hr hcap => ?_, fun t n => exec_xtel_count_range⟩
  · exact ⟨_, exec_xtel_of_not_ready cap hr, rfl, sameAllButResult_setResult _ s⟩
  · have hlength : s.writePosition = s.frameLength := ((ready_iff s).1 hr).2
    rw [exec_xtel_of_room hr hcap]
    exact copyOut_delivers s 0 _ (.inr (by rw [← hlength]; omega))
  · exact ⟨_, exec_xtel_of_no_room hr hcap, rfl, sameAllButResult_setResult _ s⟩

/-! ### XTEL after a release (R68, R92) -/

/-- A FEED from FrameReady leaves no complete frame, and changes at most index 0 of BUF, by START alone. -/
theorem exec_feed_of_ready_leaves {i : Instr} {b : Byte} {s t : State} (hf : fedByte i = some b)
    (hr : ready s = true) (h : exec i s = .next t) :
    t.frameLength.toNat = 0 ∧ ∀ j, j ≠ 0 ∨ b ≠ Config.START → bufByte t j = bufByte s j := by
  obtain ⟨-, hstart, hother⟩ := feedReleasesCompleteFrame i b s hf hr
  by_cases hb : b = Config.START
  · obtain ⟨u, hu, -, hlength, -, hstored, -⟩ := hstart hb
    cases hu.symm.trans h
    exact ⟨hlength, fun j hj => hstored.2 j (hj.resolve_right (absurd hb))⟩
  · obtain ⟨u, hu, -, hlength, -, hbuf, -⟩ := hother hb
    cases hu.symm.trans h
    exact ⟨hlength, fun j _ => hbuf j⟩

theorem ready_eq_false_of_length_zero {s : State} (h : s.frameLength.toNat = 0) : ready s = false :=
  (ready_eq_false_iff s).2 (by omega)

/-- Settles O42: CLEAR and the release of a FEED set `frame_length` to 0 and leave BUF; a START is then stored at
index 0. -/
theorem xtelAfterReleaseReturnsZero : Obligations.XtelAfterReleaseReturnsZero := by
  rintro i s t cap hr (rfl | ⟨b, hf⟩) h
  · cases exec_clear_eq_next h
    exact ⟨⟨_, exec_xtel_of_not_ready cap (ready_clearBlock s), rfl⟩, fun _ _ => rfl⟩
  · obtain ⟨hlength, hbuf⟩ := exec_feed_of_ready_leaves hf hr h
    refine ⟨⟨_, exec_xtel_of_not_ready cap (ready_eq_false_of_length_zero hlength), rfl⟩, fun j hj => hbuf j ?_⟩
    rwa [hf, ne_eq, ne_eq, Option.some.injEq] at hj

/-! ### XADDR (R93) -/

section Xaddr

variable {a b c : Operand} {s : State} (hw : s.writePosition.toNat ≤ Config.C)
include hw

theorem exec_xaddr_found {T : Nat} (hT : FieldEndsAt s a.toNat T)
    (hfits : b.toNat + (T - a.toNat + 1) ≤ c.toNat) :
    exec (.xaddr a b c) s = copyOut s a.toNat (T - a.toNat + 1) b.toNat (T - a.toNat + 1) := by
  obtain ⟨n, found, -, hfound, hnone, hexec⟩ := execXaddr_cases a b c s hw
  cases found with
  | true =>
    obtain ⟨U, hU, rfl⟩ := hfound rfl
    cases fieldEndsAt_unique hT hU
    rw [hexec, if_neg (by omega), if_pos rfl]
  | false => exact (not_noTerminator hT (hnone rfl).1).elim

theorem exec_xaddr_not_found (hN : NoTerminator s a.toNat)
    (hfits : s.writePosition.toNat - a.toNat = 0 ∨ b.toNat + (s.writePosition.toNat - a.toNat) ≤ c.toNat) :
    exec (.xaddr a b c) s = copyOut s a.toNat (s.writePosition.toNat - a.toNat) b.toNat 0 := by
  obtain ⟨n, found, -, hfound, hnone, hexec⟩ := execXaddr_cases a b c s hw
  cases found with
  | true =>
    obtain ⟨T, hT, -⟩ := hfound rfl
    exact (not_noTerminator hT hN).elim
  | false =>
    obtain ⟨-, rfl⟩ := hnone rfl
    rw [hexec, if_neg (by omega)]
    rfl

theorem exec_xaddr_of_no_room {n : Nat} (hn : ScanTakes s a.toNat n) (hpos : 0 < n)
    (hsmall : c.toNat < b.toNat + n) :
    exec (.xaddr a b c) s = .next (setResult (.fault (.outBufferTooSmall (b.toNat + n) c)) s) := by
  obtain ⟨m, found, htakes, -, -, hexec⟩ := execXaddr_cases a b c s hw
  cases scanTakes_unique hn htakes
  rw [hexec, if_pos ⟨hpos, hsmall⟩]
  rfl

/-- What the scan takes can be copied: it lies inside BUF. -/
theorem scanTakes_inside {n : Nat} (hn : ScanTakes s a.toNat n) : n = 0 ∨ a.toNat + n ≤ Config.C :=
  (scanTakes_le hn).imp_right (Nat.le_trans · hw)

end Xaddr

/-- Settles O43: a terminator, none, or no room; each is one equation for XADDR, and a copy delivers what the scan
took. -/
theorem xaddrScansAddressField : Obligations.XaddrScansAddressField := by
  refine fun a b c s hw => ⟨fun T hT hfits => ?_, fun n hN hn hfits => ?_, fun n htakes hpos hsmall => ?_⟩
  · rw [exec_xaddr_found hw hT hfits]
    exact copyOut_delivers s _ _ (scanTakes_inside hw (.inl ⟨T, hT, rfl⟩))
  · subst hn
    rw [exec_xaddr_not_found hw hN hfits]
    exact copyOut_delivers s _ _ (scanTakes_inside hw (.inr ⟨hN, rfl⟩))
  · exact ⟨_, exec_xaddr_of_no_room hw htakes hpos hsmall, rfl, sameAllButResult_setResult _ s⟩

/-! ### XCSUM (R96) -/

theorem exec_xcsum_of_inside {p : Operand} (s : State) (h : p.toNat + 2 < Config.C) :
    exec (.xcsum p) s =
      .next (setResult (.checksum (composeChecksum (bufByte s (p.toNat + 1)) (bufByte s (p.toNat + 2)))) s) :=
  if_neg (Nat.not_le.2 h)

theorem exec_xcsum_of_outside {p : Operand} (s : State) (h : Config.C ≤ p.toNat + 2) :
    exec (.xcsum p) s = .next (setResult (.fault (.positionOutOfRange p)) s) := if_pos h

/-- The byte at the higher index is the high byte (R33, R50). -/
theorem composeChecksum_toNat (lo hi : Byte) : (composeChecksum lo hi).toNat = hi.toNat * 256 + lo.toNat := by
  have happend : (composeChecksum lo hi).toNat = hi.toNat <<< 8 ||| lo.toNat := BitVec.toNat_append hi lo
  rw [happend, ← Nat.shiftLeft_add_eq_or_of_lt lo.isLt, Nat.shiftLeft_eq]

/-- Settles O45: the range check decides, and the value is the pair with the higher index as high byte. -/
theorem xcsumReadsPositionalPair : Obligations.XcsumReadsPositionalPair := by
  refine fun p s => ⟨fun hin => ?_, fun hout => ?_⟩
  · exact ⟨_, _, exec_xcsum_of_inside s hin, rfl, composeChecksum_toNat _ _, sameAllButResult_setResult _ s⟩
  · exact ⟨_, exec_xcsum_of_outside s hout, rfl, sameAllButResult_setResult _ s⟩

/-! ### What an extraction depends on (R95, R98) -/

/-- The `n` bytes of BUF from index `i` upward read the same. -/
def SameRange (s s' : State) (i n : Nat) : Prop := ∀ k, i ≤ k → k < i + n → bufByte s' k = bufByte s k

theorem SameRange.mono {s s' : State} {i j n m : Nat} (h : SameRange s s' i n) (hlow : i ≤ j)
    (hhigh : j + m ≤ i + n) : SameRange s s' j m :=
  fun k hk hlt => h k (Nat.le_trans hlow hk) (Nat.lt_of_lt_of_le hlt hhigh)

theorem SameRange.tail {s s' : State} {i n : Nat} (h : SameRange s s' i (n + 1)) : SameRange s s' (i + 1) n :=
  h.mono (by omega) (by omega)

theorem SameRange.readBuf_head {s s' : State} {i n : Nat} (h : SameRange s s' i (n + 1)) :
    readBuf s' i = readBuf s i := by
  rw [readBuf, readBuf, h i (Nat.le_refl i) (by omega)]

theorem readRange_congr {s s' : State} {i n : Nat} (h : SameRange s s' i n) :
    readRange s' i n = readRange s i n := by
  induction n generalizing i with
  | zero => rfl
  | succ n ih => simp only [readRange, h.readBuf_head, ih h.tail]

theorem scanField_congr {s s' : State} {i n : Nat} (h : SameRange s s' i n) :
    scanField s' i n = scanField s i n := by
  induction n generalizing i with
  | zero => rfl
  | succ n ih => simp only [scanField, h.readBuf_head, ih h.tail]

/-- The scan takes no more than it is given. -/
theorem scanField_count_le {s : State} {i n k : Nat} {found : Bool} (h : scanField s i n = .ok (k, found)) :
    k ≤ n := by
  induction n generalizing i k with
  | zero => cases h; exact Nat.le_refl 0
  | succ n ih =>
    rw [scanField] at h
    split at h
    · cases h
    · split at h
      · cases h; omega
      · split at h
        · cases h
        · next hscan => cases h; exact Nat.succ_le_succ (ih hscan)

/-- A delivery of the same bytes keeps two OUTs the same. -/
theorem SameOut.deliver {s s' : State} (h : SameOut s s') (dst : Nat) (bs : List Byte) :
    SameOut (Machine.deliver dst bs s) (Machine.deliver dst bs s') := by
  intro x
  rw [deliver_out, deliver_out, Memory.read_writeList, Memory.read_writeList, h x]

/-- Where `s` went to `t`, the outcome `o'` of `s'` is a state with the same result, and with the same OUT if `s` and
`s'` had the same. -/
def AnswersLike (o' : Host.Outcome State Fault Refusal) (s s' t : State) : Prop :=
  ∃ t', o' = .next t' ∧ t'.result = t.result ∧ (SameOut s s' → SameOut t t')

theorem answersLike_setResult (r : Result) (s s' : State) :
    AnswersLike (.next (setResult r s')) s s' (setResult r s) := ⟨_, rfl, rfl, id⟩

theorem copyOut_congr {s s' t : State} {src n dst count : Nat} (hbuf : SameRange s s' src n)
    (h : copyOut s src n dst count = .next t) : AnswersLike (copyOut s' src n dst count) s s' t := by
  unfold copyOut at h ⊢
  rw [readRange_congr hbuf]
  cases hread : readRange s src n with
  | error f => rw [hread] at h; cases h
  | ok bs =>
    rw [hread] at h
    cases h
    exact ⟨_, rfl, rfl, fun hout => hout.deliver dst bs⟩

/-- XTEL reads the registers, and BUF below `write_position`. -/
theorem exec_xtel_congr {cap : Operand} {s s' t : State} (hregs : SameRegs s s')
    (hbuf : SameRange s s' 0 s.writePosition.toNat) (h : exec (.xtel cap) s = .next t) :
    AnswersLike (exec (.xtel cap) s') s s' t := by
  obtain ⟨hwp, hlength, -⟩ := hregs
  have hready : ready s' = ready s := ready_congr hwp hlength
  obtain ⟨hr, rfl⟩ | ⟨hr, hcap, rfl⟩ | ⟨hr, hcap, -⟩ := exec_xtel_cases h
  · rw [exec_xtel_of_not_ready cap (hready.trans hr)]
    exact answersLike_setResult _ s s'
  · rw [← hlength] at hcap ⊢
    rw [exec_xtel_of_no_room (hready.trans hr) hcap]
    exact answersLike_setResult _ s s'
  · rw [exec_xtel_of_room hr hcap] at h
    rw [exec_xtel_of_room (hready.trans hr) (hlength ▸ hcap), hlength]
    have hframe : s.writePosition = s.frameLength := ((ready_iff s).1 hr).2
    exact copyOut_congr (hbuf.mono (Nat.le_refl 0) (by rw [hframe]; omega)) h

/-- XADDR reads the registers, and BUF below `write_position`, whatever `write_position` is. -/
theorem exec_xaddr_congr {a b c : Operand} {s s' t : State} (hregs : SameRegs s s')
    (hbuf : SameRange s s' 0 s.writePosition.toNat) (h : exec (.xaddr a b c) s = .next t) :
    AnswersLike (exec (.xaddr a b c) s') s s' t := by
  have hrange {n : Nat} (hn : n ≤ s.writePosition.toNat - a.toNat) : SameRange s s' a.toNat n := by
    intro k hk hlt
    exact hbuf k (Nat.zero_le k) (by omega)
  have hscan' := scanField_congr (hrange (Nat.le_refl _))
  obtain ⟨n, found, hscan, -⟩ := exec_xaddr_cases h
  simp only [exec, execXaddr, hregs.1, hscan', hscan] at h ⊢
  split at h
  · next hsmall =>
    rw [if_pos hsmall]
    cases raiseFault_eq_next h
    exact answersLike_setResult _ s s'
  · next hfits =>
    rw [if_neg hfits]
    exact copyOut_congr (hrange (scanField_count_le hscan)) h

/-- XCSUM reads BUF alone. -/
theorem exec_xcsum_congr {p : Operand} {s s' t : State} (hbuf : SameBuf s s') (h : exec (.xcsum p) s = .next t) :
    AnswersLike (exec (.xcsum p) s') s s' t := by
  obtain ⟨hout, rfl⟩ | ⟨hin, rfl⟩ := exec_xcsum_cases h
  · rw [exec_xcsum_of_outside s' hout]
    exact answersLike_setResult _ s s'
  · rw [exec_xcsum_of_inside s' hin, hbuf, hbuf]
    exact answersLike_setResult _ s s'

/-- An extraction reads the registers and BUF alone. -/
theorem exec_extraction_congr {i : Instr} {s s' t : State} (hi : isExtraction i = true) (hregs : SameRegs s s')
    (hbuf : SameBuf s s') (h : exec i s = .next t) : AnswersLike (exec i s') s s' t := by
  cases i <;> simp only [isExtraction, Bool.false_eq_true] at hi
  case xtel cap => exact exec_xtel_congr hregs (fun k _ _ => hbuf k) h
  case xaddr a b c => exact exec_xaddr_congr hregs (fun k _ _ => hbuf k) h
  case xcsum p => exact exec_xcsum_congr hbuf h

/-- Settles O44: the scan and the copy stay below `write_position`. -/
theorem xaddrReadsPopulatedRangeOnly : Obligations.XaddrReadsPopulatedRangeOnly := by
  intro a b c s s' t _ hregs hout hbuf h
  have hrange : SameRange s s' 0 s.writePosition.toNat := fun k _ hk => hbuf k (by omega)
  obtain ⟨t', ht', hresult, hdelivered⟩ := exec_xaddr_congr hregs hrange h
  exact ⟨t', ht', hresult, hdelivered hout⟩

/-- Settles O47: extractions leave the registers and BUF, and an extraction reads nothing else. -/
theorem extractionsAreIndependent : Obligations.ExtractionsAreIndependent := by
  intro ops j s t u rs hops hj hrun h
  obtain ⟨hregs, hbuf, -⟩ := runOps_extractions_sameBlock hops hrun
  obtain ⟨v, hv, hresult, -⟩ := exec_extraction_congr hj hregs hbuf h
  exact ⟨v, hv, hresult⟩

end Sys2Proof.Machine

/-! PROOFS. Family 42_state_machine: the three states, their transitions, and that no operation stops the block. -/

namespace Sys2Proof.Machine

/-! ### The three states as predicates on the registers (R105) -/

theorem mode_idle_iff_toNat (s : State) : mode s = .idle ↔ s.writePosition.toNat = 0 :=
  (mode_idle_iff s).trans (idle_iff_toNat s)

theorem mode_frameReady_iff_regs (s : State) :
    mode s = .frameReady ↔ 0 < s.frameLength.toNat ∧ s.writePosition = s.frameLength :=
  (mode_frameReady_iff s).trans (ready_iff s)

theorem mode_accumulating_iff_pos (s : State) :
    mode s = .accumulating ↔ 0 < s.writePosition.toNat ∧ ready s = false := by
  rw [mode_accumulating_iff, ← Bool.not_eq_true, idle_iff_toNat, Nat.pos_iff_ne_zero]

/-- Under the invariant a frame that is not complete has no length (R109). -/
theorem mode_accumulating_iff_of_inv {s : State} (h : Inv s) :
    mode s = .accumulating ↔ 0 < s.writePosition.toNat ∧ s.frameLength.toNat = 0 := by
  rw [mode_accumulating_iff_pos]
  exact and_congr_right fun _ => ⟨frameLength_eq_zero h, ready_eq_false_of_length_zero⟩

/-- With a frame in progress no frame is complete, `write_position` is not 0, and `frame_length` is 0. -/
theorem regs_of_accumulating {s : State} (h : Inv s) (hm : mode s = .accumulating) :
    ready s = false ∧ s.writePosition ≠ 0 ∧ s.frameLength.toNat = 0 := by
  obtain ⟨hpos, hfl⟩ := (mode_accumulating_iff_of_inv h).1 hm
  exact ⟨ready_eq_false_of_length_zero hfl, mt (ptr_eq_zero_iff _).1 (Nat.ne_of_gt hpos), hfl⟩

/-- Settles O32: `mode` tests `idle` and `ready`, and under the invariant the length decides `ready` (R109, R111). -/
theorem modesArePredicates : Obligations.ModesArePredicates := fun s =>
  ⟨mode_idle_iff_toNat s, mode_frameReady_iff_regs s, mode_accumulating_iff_pos s, fun hinv =>
    ⟨mode_accumulating_iff_of_inv hinv,
      fun hm => eq_false_of_ne_true fun he => hm (accumulating_of_escape hinv he)⟩⟩

/-! ### No operation and no step stops the block (R107) -/

/-- What XTEL copies of a complete frame lies inside BUF. -/
theorem exec_xtel_completes (cap : Operand) {s : State} (h : s.writePosition.toNat ≤ Config.C) :
    ∃ t, exec (.xtel cap) s = .next t := by
  obtain ⟨hnone, hroom, hsmall, -⟩ := xtelCopiesTelegram cap s
  cases hr : ready s with
  | false => exact (hnone hr).imp fun _ ht => ht.1
  | true =>
    by_cases hcap : s.frameLength.toNat - 1 ≤ cap.toNat
    · exact (hroom hr h hcap).imp fun _ ht => ht.1
    · exact (hsmall hr (Nat.lt_of_not_le hcap)).imp fun _ ht => ht.1

/-- What the scan of XADDR takes lies inside BUF. -/
theorem exec_xaddr_completes (a b c : Operand) {s : State} (h : s.writePosition.toNat ≤ Config.C) :
    ∃ t, exec (.xaddr a b c) s = .next t := by
  obtain ⟨n, found, htakes, -, -, hexec⟩ := execXaddr_cases a b c s h
  rw [hexec]
  split
  · exact ⟨_, rfl⟩
  · exact copyOut_completes (scanTakes_inside h htakes)

theorem exec_xcsum_completes (p : Operand) (s : State) : ∃ t, exec (.xcsum p) s = .next t := by
  by_cases hp : Config.C ≤ p.toNat + 2
  · exact ⟨_, exec_xcsum_of_outside s hp⟩
  · exact ⟨_, exec_xcsum_of_inside s (Nat.lt_of_not_le hp)⟩

/-- R108 is all an operation needs to answer a next state. -/
theorem exec_completes (i : Instr) {s : State} (h : s.writePosition.toNat ≤ Config.C) : ∃ t, exec i s = .next t := by
  cases hfed : fedByte i with
  | some b => exact exec_feed_completes hfed h
  | none =>
    cases i <;> simp only [fedByte, reduceCtorEq] at hfed
    case clear => exact ⟨_, exec_clear s⟩
    case xtel cap => exact exec_xtel_completes cap h
    case xaddr a b c => exact exec_xaddr_completes a b c h
    case xcsum p => exact exec_xcsum_completes p s
    case reservedOp op => exact ⟨_, rfl⟩

theorem step_of_no_request {s : State} (h : s.requests = []) : step s = .next s := by
  simp only [step, takeRequest, h]

theorem step_of_reset {s : State} {rest : List Request} (h : s.requests = .reset :: rest) :
    step s = .next (resetBlock { s with requests := rest }) := by
  simp only [step, takeRequest, h]

theorem step_of_word {s : State} {w : RequestWord} {rest : List Request} (h : s.requests = .word w :: rest) :
    step s = exec (decode w) { s with requests := rest } := by
  simp only [step, takeRequest, h]

theorem step_completes {s : State} (h : s.writePosition.toNat ≤ Config.C) : ∃ t, step s = .next t := by
  cases hreq : s.requests with
  | nil => exact ⟨s, step_of_no_request hreq⟩
  | cons r rest =>
    cases r with
    | reset => exact ⟨_, step_of_reset hreq⟩
    | word w =>
      rw [step_of_word hreq]
      exact exec_completes (decode w) (s := { s with requests := rest }) h

/-- Settles O15: only a BUF index outside `0 .. C - 1` stops the model, and `write_position <= C` rules that out. -/
theorem stepNeverStops : Obligations.StepNeverStops := fun _ hinv =>
  ⟨step_completes hinv.writePosition_le, fun i => exec_completes i hinv.writePosition_le,
    fun b => exec_completes (.feed b) hinv.writePosition_le⟩

/-! ### The state after a FEED, from its row of R77 -/

section Row

variable {i : Instr} {s t : State} {wp fl : Nat} {esc : Bool} {store : Option (Nat × Byte)} {complete overflow : Bool}

/-- A row speaks of the one state the FEED answers. -/
theorem FeedGives.leaves (hrow : FeedGives i s wp fl esc store complete overflow) (h : exec i s = .next t) :
    t.writePosition.toNat = wp ∧ t.frameLength.toNat = fl ∧ t.escapePending = esc ∧
      t.result = .fed complete overflow := by
  obtain ⟨u, hu, hwp, hfl, hesc, -, -, -, hresult⟩ := hrow
  cases hu.symm.trans h
  exact ⟨hwp, hfl, hesc, hresult⟩

theorem FeedGives.mode_idle (hrow : FeedGives i s 0 fl esc store complete overflow) (h : exec i s = .next t) :
    mode t = .idle :=
  (mode_idle_iff_toNat t).2 (hrow.leaves h).1

theorem FeedGives.mode_accumulating (hrow : FeedGives i s wp 0 esc store complete overflow) (hpos : 0 < wp)
    (h : exec i s = .next t) :
    mode t = .accumulating ∧ t.escapePending = esc ∧ t.writePosition.toNat = wp := by
  obtain ⟨hwp, hfl, hesc, -⟩ := hrow.leaves h
  exact ⟨(mode_accumulating_iff_pos t).2 ⟨hwp ▸ hpos, ready_eq_false_of_length_zero hfl⟩, hesc, hwp⟩

theorem FeedGives.mode_frameReady (hrow : FeedGives i s wp wp esc store complete overflow) (hpos : 0 < wp)
    (h : exec i s = .next t) : mode t = .frameReady ∧ t.frameLength.toNat = wp := by
  obtain ⟨hwp, hfl, -⟩ := hrow.leaves h
  exact ⟨(mode_frameReady_iff_regs t).2 ⟨hfl ▸ hpos, BitVec.eq_of_toNat_eq (hwp.trans hfl.symm)⟩, hfl⟩

end Row

/-- With room, every byte but ESC that completes no frame is stored, as itself or as its literal (R72 to R74). -/
theorem feedGives_room {i : Instr} {b : Byte} {s : State} (hf : fedByte i = some b) (hr : ready s = false)
    (hw : s.writePosition ≠ 0) (hb : b ≠ Config.ESC) (hlt : s.writePosition.toNat < Config.C)
    (hshort : ¬ (b = Config.END ∧ Config.MINLEN < s.writePosition.toNat + 1)) :
    ∃ v, FeedGives i s (s.writePosition.toNat + 1) s.frameLength.toNat false (some (s.writePosition.toNat, v))
      false false := by
  obtain ⟨hi, -⟩ | ⟨-, hesc⟩ | ⟨-, he, hc⟩ | ho := feed_class b s
  · exact absurd ((idle_iff s).1 hi) hw
  · exact absurd hesc hb
  · exact ⟨_, (feedGives_escaped hf hc hr hw he).1 hlt⟩
  · exact ⟨_, feedGives_of_push hf hlt ((feedByte_ordinary_of_lt hr ho hlt).trans (if_neg hshort))⟩

/-! ### The transitions of a FEED, by the state it starts from (R106) -/

section Transitions

variable {i : Instr} {b : Byte} {s t : State} (hf : fedByte i = some b) (h : exec i s = .next t)
include hf h

theorem feed_of_idle_discards (hm : mode s = .idle) (hb : b ≠ Config.START) : mode t = .idle := by
  obtain ⟨hdiscard, -⟩ := feedIdleTest i b s hf ((idle_iff s).1 ((mode_idle_iff s).1 hm))
  exact (hdiscard hb).mode_idle h

theorem feed_of_frameReady_discards (hm : mode s = .frameReady) (hb : b ≠ Config.START) : mode t = .idle := by
  obtain ⟨-, -, hdiscard⟩ := feedReleasesCompleteFrame i b s hf ((mode_frameReady_iff s).1 hm)
  exact (hdiscard hb).mode_idle h

theorem feed_of_frameReady_opens (hm : mode s = .frameReady) (hb : b = Config.START) :
    mode t = .accumulating ∧ t.escapePending = false ∧ t.writePosition.toNat = 1 := by
  obtain ⟨-, hstart, -⟩ := feedReleasesCompleteFrame i b s hf ((mode_frameReady_iff s).1 hm)
  exact (hstart hb).mode_accumulating Nat.one_pos h

theorem feed_of_accumulating_overflows (hm : mode s = .accumulating) (hb : b ≠ Config.ESC)
    (hfull : s.writePosition.toNat = Config.C) :
    mode t = .accumulating ∧ t.escapePending = false ∧ t.writePosition.toNat = 1 ∧ t.result = .fed false true := by
  obtain ⟨-, hr⟩ := (mode_accumulating_iff s).1 hm
  have hrow := feedGives_full hf hr hfull hb
  obtain ⟨hmode, hesc, hwp⟩ := hrow.mode_accumulating Nat.one_pos h
  obtain ⟨-, -, -, hresult⟩ := hrow.leaves h
  exact ⟨hmode, hesc, hwp, hresult⟩

variable (hinv : Inv s)
include hinv

theorem feed_of_idle_opens (hm : mode s = .idle) (hb : b = Config.START) :
    mode t = .accumulating ∧ t.escapePending = false ∧ t.writePosition.toNat = 1 := by
  have hw : s.writePosition = 0 := (idle_iff s).1 ((mode_idle_iff s).1 hm)
  obtain ⟨-, hstart⟩ := feedIdleTest i b s hf hw
  rw [frameLength_eq_zero hinv (not_ready_of_idle hw)] at hstart
  exact (hstart hb).mode_accumulating Nat.one_pos h

variable (hm : mode s = .accumulating)
include hm

theorem feed_of_accumulating_introducer (hb : b = Config.ESC) :
    mode t = .accumulating ∧ t.escapePending = true ∧ t.writePosition = s.writePosition := by
  subst hb
  obtain ⟨hr, hw, hfl⟩ := regs_of_accumulating hinv hm
  have hrow := feedEscapeIntroducer i s hf hr hw
  rw [hfl] at hrow
  obtain ⟨hmode, hesc, hwp⟩ := hrow.mode_accumulating ((mode_accumulating_iff_pos s).1 hm).1 h
  exact ⟨hmode, hesc, BitVec.eq_of_toNat_eq hwp⟩

theorem feed_of_accumulating_stores (hb : b ≠ Config.ESC) (hlt : s.writePosition.toNat < Config.C)
    (hshort : ¬ (b = Config.END ∧ Config.MINLEN < s.writePosition.toNat + 1)) :
    mode t = .accumulating ∧ t.escapePending = false ∧
      t.writePosition.toNat = s.writePosition.toNat + 1 := by
  obtain ⟨hr, hw, hfl⟩ := regs_of_accumulating hinv hm
  obtain ⟨v, hrow⟩ := feedGives_room hf hr hw hb hlt hshort
  rw [hfl] at hrow
  exact hrow.mode_accumulating (Nat.succ_pos _) h

theorem feed_of_accumulating_completes (hb : b = Config.END) (hlt : s.writePosition.toNat < Config.C)
    (hfloor : Config.MINLEN < s.writePosition.toNat + 1) :
    mode t = .frameReady ∧ t.frameLength.toNat = s.writePosition.toNat + 1 := by
  subst hb
  obtain ⟨hr, hw, -⟩ := regs_of_accumulating hinv hm
  obtain ⟨hcomplete, -⟩ := feedCompletesFrame.1 i s hf hr hw hlt
  exact (hcomplete hfloor).mode_frameReady (Nat.succ_pos _) h

end Transitions

/-- An extraction leaves the registers, and so the state of the state machine. -/
theorem mode_of_exec_extraction {i : Instr} {s t : State} (hi : isExtraction i = true) (h : exec i s = .next t) :
    mode t = mode s := by
  obtain ⟨⟨hwp, hfl, -⟩, -⟩ := exec_extraction_sameBlock hi h
  exact mode_congr hwp hfl

theorem escapeCode_ne {b : Byte} (h : b = Config.ESC_END ∨ b = Config.ESC_ESC) :
    b ≠ Config.ESC ∧ b ≠ Config.END := by
  obtain rfl | rfl := h <;> decide

/-- Settles O33: each row is the row of R77 for that byte, read by `mode`; the row of an escaped code is that of a
byte that is no ESC and no END. -/
theorem transitionTable : Obligations.TransitionTable := by
  intro s hinv
  refine ⟨fun i b hf => ?_, ⟨_, exec_clear s, rfl⟩, fun rest hreq => ⟨_, step_of_reset hreq, rfl⟩, fun i hi => ?_⟩
  · obtain ⟨t, h⟩ := exec_completes i hinv.writePosition_le
    exact ⟨t, h, feed_of_idle_discards hf h, feed_of_idle_opens hf h hinv,
      feed_of_accumulating_introducer hf h hinv,
      fun hm _ hcode hlt => feed_of_accumulating_stores hf h hinv hm (escapeCode_ne hcode).1 hlt
        fun hend => (escapeCode_ne hcode).2 hend.1,
      feed_of_accumulating_stores hf h hinv, feed_of_accumulating_completes hf h hinv,
      feed_of_accumulating_overflows hf h, feed_of_frameReady_discards hf h, feed_of_frameReady_opens hf h⟩
  · obtain ⟨t, h⟩ := exec_completes i hinv.writePosition_le
    exact ⟨t, h, mode_of_exec_extraction hi h⟩

/-! ### Idle absorbs every byte but START (R115) -/

theorem exec_feed_of_idle {b : Byte} {s : State} (hi : idle s = true) (hb : b ≠ Config.START) :
    exec (.feed b) s = .next (setResult (.fed false false) s) := by
  rw [exec_of_fedByte rfl, feedByte, release_of_not_ready (not_ready_of_idle ((idle_iff s).1 hi)),
    feedReleased_discard hi hb]

/-- Every discarded byte answers (false, false), and the result is all that a sequence of them changes. -/
theorem runOps_feeds_of_idle {bs : List Byte} {s : State} (hi : idle s = true) (hbs : Config.START ∉ bs) :
    ∃ r, runOps (bs.map Instr.feed) s = .next (List.replicate bs.length (.fed false false), setResult r s) := by
  induction bs generalizing s with
  | nil => exact ⟨s.result, rfl⟩
  | cons b bs ih =>
    obtain ⟨hb, hrest⟩ := not_or.1 (mt List.mem_cons.2 hbs)
    obtain ⟨r, hr⟩ := ih (s := setResult (.fed false false) s) hi hrest
    exact ⟨r, runOps_cons (exec_feed_of_idle hi (Ne.symm hb)) hr⟩

/-- With a frame in progress a byte other than START changes `escape_pending`: ESC sets it, a data byte clears it. -/
theorem exists_feed_changes_of_accumulating {s : State} (hinv : Inv s) (hm : mode s = .accumulating) :
    ∃ b t, b ≠ Config.START ∧ exec (.feed b) s = .next t ∧ ¬ SameRegs s t := by
  cases he : s.escapePending with
  | false =>
    obtain ⟨t, h⟩ := exec_completes (.feed Config.ESC) hinv.writePosition_le
    obtain ⟨-, hset, -⟩ := feed_of_accumulating_introducer rfl h hinv hm rfl
    refine ⟨_, t, by decide, h, fun ⟨_, _, hsame⟩ => ?_⟩
    cases hset.symm.trans (hsame.trans he)
  | true =>
    obtain ⟨t, h, hcleared, -⟩ :=
      feedByte_storedNext_of_escape hinv.writePosition_le hm he (show (0x00 : Byte) ≠ Config.ESC by decide)
    refine ⟨0x00, t, by decide, h, fun ⟨_, _, hsame⟩ => ?_⟩
    cases hcleared.symm.trans (hsame.trans he)

/-- A complete frame is released by any byte, END among them. -/
theorem exists_feed_changes_of_frameReady {s : State} (hinv : Inv s) (hm : mode s = .frameReady) :
    ∃ b t, b ≠ Config.START ∧ exec (.feed b) s = .next t ∧ ¬ SameRegs s t := by
  obtain ⟨t, h⟩ := exec_completes (.feed Config.END) hinv.writePosition_le
  have hidle := feed_of_frameReady_discards rfl h hm (by decide)
  refine ⟨_, t, by decide, h, fun ⟨hwp, hfl, _⟩ => ?_⟩
  rw [mode_congr hwp hfl, hm] at hidle
  cases hidle

/-- Settles O34: in Idle every byte but START is discarded; a block that is not Idle is in one of the other two
states, each of which some byte changes. -/
theorem idleAbsorbsUntilStart : Obligations.IdleAbsorbsUntilStart := by
  constructor
  · intro s bs hi hbs
    obtain ⟨r, hrun⟩ := runOps_feeds_of_idle hi hbs
    exact ⟨_, _, hrun, rfl, sameAllButResult_setResult r s⟩
  · intro s hinv hi
    cases hr : ready s with
    | false => exact exists_feed_changes_of_accumulating hinv ((mode_accumulating_iff s).2 ⟨hi, hr⟩)
    | true => exact exists_feed_changes_of_frameReady hinv ((mode_frameReady_iff s).2 hr)

end Sys2Proof.Machine

/-! PROOFS. Family 60_exceptions: when each fault is raised, with its code and its information. -/

namespace Sys2Proof.Machine

/-! ### The fault each instruction raises (R126) -/

/-- The faults of R126 by instruction: what `i` raises in `s`, if anything. -/
def Raises (i : Instr) (s : State) (f : OpFault) : Prop :=
  match i with
  | .xtel cap => ready s = true ∧ cap.toNat < s.frameLength.toNat - 1 ∧
      f = .outBufferTooSmall (s.frameLength.toNat - 1) cap
  | .xaddr a b cap => ∃ m, ScanTakes s a.toNat m ∧ 0 < m ∧ cap.toNat < b.toNat + m ∧
      f = .outBufferTooSmall (b.toNat + m) cap
  | .xcsum p => Config.C ≤ p.toNat + 2 ∧ f = .positionOutOfRange p
  | .reservedOp op => f = .illegalOperation op
  | _ => False

theorem not_raises_of_fedByte {i : Instr} {b : Byte} (hf : fedByte i = some b) (s : State) (f : OpFault) :
    ¬ Raises i s f := by
  cases i <;> simp only [fedByte, reduceCtorEq] at hf <;> exact id

theorem exec_xtel_fault_iff {cap : Operand} {s t : State} (h : exec (.xtel cap) s = .next t) (f : OpFault) :
    t.result = .fault f ↔ Raises (.xtel cap) s f := by
  obtain ⟨hr, rfl⟩ | ⟨hr, hcap, rfl⟩ | ⟨-, hcap, bs, -, -, rfl⟩ := exec_xtel_cases h
  · simp [Raises, hr]
  · simp [Raises, hr, hcap, eq_comm]
  · simp [Raises, Nat.not_lt.2 hcap]

/-- The scan takes one number of bytes, which decides whether XADDR raises and with what. -/
theorem exec_xaddr_fault_iff {a b cap : Operand} {s t : State} (hw : s.writePosition.toNat ≤ Config.C)
    (h : exec (.xaddr a b cap) s = .next t) (f : OpFault) :
    t.result = .fault f ↔ Raises (.xaddr a b cap) s f := by
  obtain ⟨n, found, hn, -, -, hexec⟩ := execXaddr_cases a b cap s hw
  have hraises : Raises (.xaddr a b cap) s f ↔
      0 < n ∧ cap.toNat < b.toNat + n ∧ f = .outBufferTooSmall (b.toNat + n) cap :=
    ⟨fun ⟨m, hm, hrule⟩ => scanTakes_unique hm hn ▸ hrule, fun hrule => ⟨n, hn, hrule⟩⟩
  rw [hraises]
  rw [hexec] at h
  split at h
  · next hsmall => simp [raiseFault_eq_next h, hsmall, eq_comm]
  · next hfits =>
    obtain ⟨bs, -, -, rfl⟩ := copyOut_eq_next h
    exact ⟨nofun, fun ⟨hpos, hsmall, _⟩ => absurd ⟨hpos, hsmall⟩ hfits⟩

theorem exec_xcsum_fault_iff {p : Operand} {s t : State} (h : exec (.xcsum p) s = .next t) (f : OpFault) :
    t.result = .fault f ↔ Raises (.xcsum p) s f := by
  obtain ⟨hout, rfl⟩ | ⟨hin, rfl⟩ := exec_xcsum_cases h
  · simp [Raises, hout, eq_comm]
  · simp [Raises, Nat.not_le.2 hin]

/-- An operation's result is the fault its rule names, and no other. -/
theorem exec_fault_iff {i : Instr} {s t : State} (hw : s.writePosition.toNat ≤ Config.C)
    (h : exec i s = .next t) (f : OpFault) : t.result = .fault f ↔ Raises i s f := by
  cases hfed : fedByte i with
  | some b =>
    obtain ⟨complete, overflow, hres⟩ := exec_feed_result hfed h
    simp [hres, not_raises_of_fedByte hfed]
  | none =>
    cases i <;> simp only [fedByte, reduceCtorEq] at hfed
    case clear => simp [exec_clear_eq_next h, Raises]
    case xtel cap => exact exec_xtel_fault_iff h f
    case xaddr a b cap => exact exec_xaddr_fault_iff hw h f
    case xcsum p => exact exec_xcsum_fault_iff h f
    case reservedOp op => simp [exec_reservedOp_eq_next h, Raises, eq_comm]

/-! ### The same rules by fault -/

theorem raises_illegalOperation_iff {i : Instr} {s : State} {op : Byte} :
    Raises i s (.illegalOperation op) ↔ i = .reservedOp op := by
  cases i <;> simp only [Raises, reduceCtorEq, and_false, exists_false]
  case reservedOp code =>
    constructor <;> rintro ⟨⟩ <;> rfl

theorem raises_outBufferTooSmall_iff {i : Instr} {s : State} {n : Nat} {cap : Operand} :
    Raises i s (.outBufferTooSmall n cap) ↔
      (i = .xtel cap ∧ ready s = true ∧ n = s.frameLength.toNat - 1 ∧ cap.toNat < n) ∨
      ∃ a b m, i = .xaddr a b cap ∧ ScanTakes s a.toNat m ∧ 0 < m ∧ n = b.toNat + m ∧ cap.toNat < n := by
  cases i <;> simp only [Raises, reduceCtorEq, false_and, and_false, exists_false, or_false, false_or]
  case xtel c =>
    constructor
    · rintro ⟨hr, hsmall, ⟨⟩⟩
      exact ⟨rfl, hr, rfl, hsmall⟩
    · rintro ⟨⟨⟩, hr, rfl, hsmall⟩
      exact ⟨hr, hsmall, rfl⟩
  case xaddr a b c =>
    constructor
    · rintro ⟨m, hm, hpos, hsmall, ⟨⟩⟩
      exact ⟨a, b, m, rfl, hm, hpos, rfl, hsmall⟩
    · rintro ⟨_, _, m, ⟨⟩, hm, hpos, rfl, hsmall⟩
      exact ⟨m, hm, hpos, hsmall, rfl⟩

theorem raises_positionOutOfRange_iff {i : Instr} {s : State} {p : Operand} :
    Raises i s (.positionOutOfRange p) ↔ i = .xcsum p ∧ Config.C ≤ p.toNat + 2 := by
  cases i <;> simp only [Raises, reduceCtorEq, false_and, and_false, exists_false]
  case xcsum q =>
    constructor
    · rintro ⟨hout, ⟨⟩⟩
      exact ⟨rfl, hout⟩
    · rintro ⟨⟨⟩, hout⟩
      exact ⟨hout, rfl⟩

/-! ### No fault is latched (R126) -/

/-- A fault differs from the state it was raised in by the result alone, which no operation reads. -/
theorem exec_after_fault {i : Instr} {s t : State} {f : OpFault} (h : exec i s = .next t)
    (hf : t.result = .fault f) (j : Instr) : exec j t = exec j s := by
  rw [exec_eq_of_fault h hf, exec_setResult]

/-- Settles O50: the rules of R126 by instruction, read by fault; the codes are the three of its table. -/
theorem faultsRaisedExactlyWhen : Obligations.FaultsRaisedExactlyWhen := by
  refine ⟨fun i s t hw h => ⟨fun op => ?_, fun n cap => ?_, fun p => ?_, fun f j hf => ?_⟩, ?_⟩
  · exact (exec_fault_iff hw h _).trans raises_illegalOperation_iff
  · exact (exec_fault_iff hw h _).trans raises_outBufferTooSmall_iff
  · exact (exec_fault_iff hw h _).trans raises_positionOutOfRange_iff
  · exact exec_after_fault h hf j
  · exact ⟨fun _ => rfl, fun _ _ => rfl, fun _ => rfl⟩

end Sys2Proof.Machine

/-! PROOFS. Family 70_reset_and_hazards: the reset event, and an introducer followed by a raw end marker. -/

namespace Sys2Proof.Machine

/-! ### The reset event (R145) -/

/-- On the registers the reset event does what CLEAR does, whatever requests wait. -/
theorem sameRegs_resetBlock (s : State) (rest : List Request) :
    SameRegs (clearBlock s) (resetBlock { s with requests := rest }) := ⟨rfl, rfl, rfl⟩

theorem mode_resetBlock (s : State) : mode (resetBlock s) = .idle :=
  (mode_idle_iff _).2 ((idle_iff _).2 (resetBlock_writePosition s))

/-- Settles O11: the step is `resetBlock`, which zeroes the registers like CLEAR and empties BUF, so that every byte
reads as the free value of the new draw. -/
theorem resetEventClearsBlock : Obligations.ResetEventClearsBlock := fun s rest hreq =>
  ⟨_, _, step_of_reset hreq, exec_clear s, sameRegs_resetBlock s rest, resetBlock_writePosition _,
    resetBlock_frameLength _, resetBlock_escapePending _, mode_resetBlock _, fun _ => bufByte_of_unstored rfl⟩

/-! ### An introducer followed by a raw end marker (R156) -/

/-- Inside a frame, with room and at the floor, an END completes the frame: the row of R77 does not ask whether an
escape is pending. -/
theorem feedGives_end_of_accumulating {i : Instr} {s : State} (hf : fedByte i = some Config.END)
    (hm : mode s = .accumulating) (hlt : s.writePosition.toNat < Config.C)
    (hfloor : Config.MINLEN ≤ s.writePosition.toNat) :
    FeedGives i s (s.writePosition.toNat + 1) (s.writePosition.toNat + 1) false
      (some (s.writePosition.toNat, Config.END)) true false := by
  obtain ⟨hpos, hr⟩ := (mode_accumulating_iff_pos s).1 hm
  have hw : s.writePosition ≠ 0 := mt (ptr_eq_zero_iff _).1 (Nat.ne_of_gt hpos)
  obtain ⟨hcomplete, -⟩ := feedCompletesFrame.1 i s hf hr hw hlt
  exact hcomplete (Nat.lt_succ_of_le hfloor)

/-- Settles O28: the introducer leaves the block in Accumulating with the same `write_position`, and from there the
END completes the frame although an escape is pending. -/
theorem escapedRawEndCompletes : Obligations.EscapedRawEndCompletes := by
  intro s hinv hm hlt hfloor
  obtain ⟨hr, hw, -⟩ := regs_of_accumulating hinv hm
  obtain ⟨u, hesc, -, -, -, -, -, -, hescResult⟩ := feedEscapeIntroducer (.feed Config.ESC) s rfl hr hw
  obtain ⟨hmu, -, hwu⟩ := feed_of_accumulating_introducer rfl hesc hinv hm rfl
  rw [← hwu] at hlt hfloor
  have hendRow := feedGives_end_of_accumulating (i := .feed Config.END) rfl hmu hlt hfloor
  have ⟨t, hend, _⟩ := hendRow
  obtain ⟨-, -, -, hendResult⟩ := hendRow.leaves hend
  obtain ⟨hmt, hlen⟩ := hendRow.mode_frameReady (Nat.succ_pos _) hend
  refine ⟨t, ?_, hmt, by rw [hlen, hwu]⟩
  rw [← hescResult, ← hendResult]
  exact runOps_cons hesc (runOps_single hend)

end Sys2Proof.Machine

/-! PROOFS. Family other: the encoding round trip, the invariant, what FEED leaves, write permissions, framed
payloads. -/

namespace Sys2Proof

/-! ### Decoding what was encoded (R45, R46, R51 to R53) -/

theorem data_wf_iff (b : Byte) : (Instr.data b).wf = true ↔ b ∉ Config.namedBytes := by
  simp [Instr.wf]

theorem reservedOp_wf_iff (op : Byte) : (Instr.reservedOp op).wf = true ↔ 5 ≤ op.toNat := decide_eq_true_iff

/-- Settles O2: `decode` picks the row by the encoded `op` or octet, and the fields of a packed word are what was
packed. -/
theorem decodeOfEncode : Obligations.DecodeOfEncode := by
  intro i hwf
  cases i with
  | clear => exact decodeCmd_of_opCLEAR (opField_packCmd ..)
  | feed b => exact (decodeCmd_of_opFEED (opField_packCmd ..)).trans (congrArg Instr.feed (byteField_packCmd ..))
  | xtel cap => exact (decodeCmd_of_opXTEL (opField_packCmd ..)).trans (congrArg Instr.xtel (cField_packCmd ..))
  | xaddr a b c =>
    refine (decodeCmd_of_opXADDR (opField_packCmd ..)).trans ?_
    rw [aField_packCmd, b16Field_packCmd, cField_packCmd]
  | xcsum p => exact (decodeCmd_of_opXCSUM (opField_packCmd ..)).trans (congrArg Instr.xcsum (aField_packCmd ..))
  | reservedOp op =>
    have hop : opField (packCmd op 0 0 0) = op := opField_packCmd ..
    have hreserved : 5 ≤ (opField (packCmd op 0 0 0)).toNat := by rwa [hop, ← reservedOp_wf_iff]
    exact (decodeCmd_of_reserved hreserved).trans (congrArg Instr.reservedOp hop)
  | start => rfl
  | endMark => rfl
  | esc => rfl
  | escEnd => rfl
  | escEsc => rfl
  | data b => exact decodeByte_of_not_named ((data_wf_iff b).1 hwf)

/-! ### Every word is well formed (R46, R53, R54) -/

theorem decodeCmd_wf (w : CmdWord) : (decodeCmd w).wf = true := by
  by_cases hreserved : 5 ≤ (opField w).toNat
  · rw [decodeCmd_of_reserved hreserved]
    exact (reservedOp_wf_iff _).2 hreserved
  · have hop (op : Byte) (h : (opField w).toNat = op.toNat) : opField w = op := BitVec.eq_of_toNat_eq h
    obtain h | h | h | h | h : (opField w).toNat = 0 ∨ (opField w).toNat = 1 ∨ (opField w).toNat = 2 ∨
      (opField w).toNat = 3 ∨ (opField w).toNat = 4 := by omega
    · rw [decodeCmd_of_opCLEAR (hop _ h)]; rfl
    · rw [decodeCmd_of_opFEED (hop _ h)]; rfl
    · rw [decodeCmd_of_opXTEL (hop _ h)]; rfl
    · rw [decodeCmd_of_opXADDR (hop _ h)]; rfl
    · rw [decodeCmd_of_opXCSUM (hop _ h)]; rfl

/-- The five named octets decode to rows without operand. -/
theorem decodeByte_wf_of_named {b : Byte} (h : b ∈ Config.namedBytes) : (decodeByte b).wf = true := by
  revert b
  decide

/-- Settles O3: `op` is below 5 and names an operation, or reserved; an octet is named, or class DATA. -/
theorem everyWordDecodesWellFormed : Obligations.EveryWordDecodesWellFormed
  | .cmd w => decodeCmd_wf w
  | .byte b => by
    by_cases hb : b ∈ Config.namedBytes
    · exact decodeByte_wf_of_named hb
    · rw [decode, decodeByte_of_not_named hb]
      exact (data_wf_iff b).2 hb

/-- Settles O1: the parameters are literals. -/
theorem parametersMeetConstraints : Obligations.ParametersMeetConstraints := by
  unfold Obligations.ParametersMeetConstraints
  decide

/-- Settles O6: ten fixed words, decoded by evaluation. -/
theorem specWordsDecode : Obligations.SpecWordsDecode := by
  unfold Obligations.SpecWordsDecode
  decide

namespace Machine

/-! ### Octets are FEEDs; steps run what was decoded -/

/-- An octet decodes to the row that feeds it, whatever its class. -/
theorem fedByte_decodeByte (b : Byte) : fedByte (decodeByte b) = some b := by
  by_cases hb : b ∈ Config.namedBytes
  · revert b
    decide
  · rw [decodeByte_of_not_named hb, fedByte]

/-- Settles O7: two instructions that feed the same byte run the same `feedByte`. -/
theorem octetsAreFeeds : Obligations.OctetsAreFeeds := by
  intro s
  have same {i : Instr} {b : Byte} (hf : fedByte i = some b) : exec i s = exec (.feed b) s :=
    (exec_of_fedByte hf s).trans (exec_of_fedByte rfl s).symm
  exact ⟨fun b => same (fedByte_decodeByte b), same rfl, same rfl, same rfl, same rfl, same rfl, fun _ => same rfl⟩

/-- Settles O8: a step runs the decoded word; the encoding of a well-formed instruction decodes to it. -/
theorem stepRunsDecodedInstruction : Obligations.StepRunsDecodedInstruction := by
  refine fun s w rest i hreq => ⟨fun hdecode => ?_, fun hwf hencode => ?_⟩
  · rw [step_of_word hreq, hdecode]
  · rw [step_of_word hreq, hencode, decodeOfEncode i hwf]

/-- Settles O9: with no request `step` returns its argument. -/
theorem stepHoldsStateBetweenOperations : Obligations.StepHoldsStateBetweenOperations := fun _ =>
  step_of_no_request

/-- Settles O12: the step is `resetBlock`, which advances the draw and drops the result. -/
theorem resetEventTakesNewDraw : Obligations.ResetEventTakesNewDraw := fun _ _ hreq =>
  ⟨_, step_of_reset hreq, resetBlock_resetDraw _, fun _ => rfl, resetBlock_requests _, resetBlock_result _⟩

/-! ### The invariant -/

/-- Settles O13: with the registers at 0 and nothing stored, every clause of the invariant is empty. -/
theorem resetMeetsInvariant : Obligations.ResetMeetsInvariant where
  writePosition_le := Nat.zero_le _
  length_eq h := absurd h (Nat.lt_irrefl 0)
  length_range := .inl rfl
  escape_accumulating := Bool.noConfusion
  end_marker h := absurd h (Nat.lt_irrefl 0)
  populated _ h := absurd h (Nat.not_lt_zero _)
  buf_wf := rfl
  buf_below := rfl
  out_wf := rfl
  out_below := rfl

@[simp] theorem makeRoom_escapePending_of_clearEscape (s : State) :
    (makeRoom (setEscape false s)).escapePending = false := by
  unfold makeRoom
  split <;> rfl

/-- A state a store of FEED starts from: room made, no escape pending, no frame complete. -/
theorem inv_beforeStore {s : State} (h : Inv s) (hr : ready s = false) :
    Inv (makeRoom (setEscape false s)) ∧ (makeRoom (setEscape false s)).frameLength.toNat = 0 := by
  refine ⟨inv_makeRoom (inv_clearEscape h), ?_⟩
  unfold makeRoom
  split
  · rfl
  · exact frameLength_eq_zero (s := s) h hr

/-- FEED keeps the invariant: the release and the room made for a store keep it, and a store then fits. -/
theorem inv_of_exec_feed {i : Instr} {b : Byte} {s t : State} (hf : fedByte i = some b) (hs : Inv s)
    (h : exec i s = .next t) : Inv t := by
  have hrel := inv_release hs
  obtain ⟨hstore, hlength⟩ := inv_beforeStore hrel (ready_release s)
  have hesc := makeRoom_escapePending_of_clearEscape (release s)
  obtain ⟨-, -, rfl⟩ | ⟨hi, -, rfl⟩ | ⟨-, -, -, hlt, rfl⟩ | ⟨-, hlt, hcomp, rfl⟩ | ⟨-, hlt, -, rfl⟩ :=
    exec_feed_cases hf h
  · exact inv_setResult _ hrel
  · exact inv_setResult _ (inv_setEscape hrel ((mode_accumulating_iff _).2 ⟨hi, ready_release s⟩))
  · exact inv_setResult _ (inv_pushByte _ hstore hlength hesc hlt)
  · obtain ⟨rfl, hfloor⟩ := (completes_iff _ _).1 hcomp
    exact inv_setResult _ (inv_markComplete hstore hlength hesc hlt hfloor)
  · exact inv_setResult _ (inv_pushByte _ hstore hlength hesc hlt)

theorem config_C_le_operands : Config.C ≤ 2 ^ Config.IDXW := by decide

/-- XTEL delivers less than a frame, which is less than any capacity holds (R18). -/
theorem inv_of_exec_xtel {cap : Operand} {s t : State} (hs : Inv s) (h : exec (.xtel cap) s = .next t) : Inv t := by
  obtain ⟨-, rfl⟩ | ⟨-, -, rfl⟩ | ⟨hr, -, bs, hbs, -, rfl⟩ := exec_xtel_cases h
  · exact inv_setResult _ hs
  · exact inv_setResult _ hs
  · obtain ⟨-, hlength⟩ := frameLength_range_of_ready hs hr
    have := config_C_le_operands
    exact inv_setResult _ (inv_deliver hs (.inl (by omega)))

/-- XADDR delivers nothing, or stays below its capacity (R93). -/
theorem inv_of_exec_xaddr {a b c : Operand} {s t : State} (hs : Inv s) (h : exec (.xaddr a b c) s = .next t) :
    Inv t := by
  obtain ⟨n, found, -, ⟨-, -, rfl⟩ | ⟨hfits, bs, hbs, -, rfl⟩⟩ := exec_xaddr_cases h
  · exact inv_setResult _ hs
  · refine inv_setResult _ (inv_deliver hs ?_)
    by_cases hn : n = 0
    · exact .inr (List.eq_nil_of_length_eq_zero (hbs.trans hn))
    · have hcap : c.toNat < 2 ^ Config.IDXW := c.isLt
      exact .inl (by omega)

theorem inv_of_exec {i : Instr} {s t : State} (hs : Inv s) (h : exec i s = .next t) : Inv t := by
  cases hfed : fedByte i with
  | some b => exact inv_of_exec_feed hfed hs h
  | none =>
    cases i <;> simp only [fedByte, reduceCtorEq] at hfed
    case clear => cases exec_clear_eq_next h; exact inv_setResult _ (inv_clearBlock hs)
    case xtel cap => exact inv_of_exec_xtel hs h
    case xaddr a b c => exact inv_of_exec_xaddr hs h
    case xcsum p => obtain ⟨-, rfl⟩ | ⟨-, rfl⟩ := exec_xcsum_cases h <;> exact inv_setResult _ hs
    case reservedOp op => cases exec_reservedOp_eq_next h; exact inv_setResult _ hs

/-- Settles O14: no request changes nothing, a reset empties BUF and clears the registers, and every operation
keeps the invariant. -/
theorem stepKeepsInvariant : Obligations.StepKeepsInvariant := by
  intro s t hs h
  cases hreq : s.requests with
  | nil => cases (step_of_no_request hreq).symm.trans h; exact hs
  | cons r rest =>
    have hrest := inv_requests rest hs
    cases r with
    | reset => cases (step_of_reset hreq).symm.trans h; exact inv_resetBlock hrest
    | word w => exact inv_of_exec hrest ((step_of_word hreq).symm.trans h)

/-! ### What FEED leaves unchanged -/

/-- Settles O22: inside a frame such a byte is ordinary, and is stored with room or after an overflow reset. -/
theorem feedOrdinaryByte : Obligations.FeedOrdinaryByte := by
  intro i b s hf hr hw hb hcode
  have ho : isOrdinary b s := isOrdinary_of_not_idle (idle_eq_false_of_ne hw) hb hcode
  exact ⟨fun hlt hshort => feedGives_of_push hf hlt ((feedByte_ordinary_of_lt hr ho hlt).trans (if_neg hshort)),
    fun hfull => feedGives_of_overflow hf (feedByte_ordinary_of_full hr ho hfull)⟩

/-- FEED writes neither OUT nor the model's own fields. -/
theorem exec_feed_keeps {i : Instr} {b : Byte} {s t : State} (hf : fedByte i = some b) (h : exec i s = .next t) :
    t.out = s.out ∧ SameOwn s t := by
  obtain ⟨-, -, rfl⟩ | ⟨-, -, rfl⟩ | ⟨-, -, -, -, rfl⟩ | ⟨-, -, -, rfl⟩ | ⟨-, -, -, rfl⟩ := exec_feed_cases hf h <;>
    simp [SameOwn]

/-- A store of FEED changes the byte at `appendIndex` alone. -/
theorem bufByte_store_of_ne (v : Byte) (s : State) {j : Nat} (hj : j ≠ appendIndex (setEscape false s)) :
    bufByte (pushByte v (makeRoom (setEscape false s))) j = bufByte s j := by
  rw [bufByte_pushByte, ← appendIndex, if_neg hj, bufByte_makeRoom, bufByte_setEscape]

theorem exec_feed_buf {i : Instr} {b : Byte} {s t : State} (hf : fedByte i = some b) (h : exec i s = .next t)
    {j : Nat} (hj : j ≠ appendIndex (setEscape false (release s))) : bufByte t j = bufByte s j := by
  rw [← bufByte_release s j]
  obtain ⟨-, -, rfl⟩ | ⟨-, -, rfl⟩ | ⟨-, -, -, -, rfl⟩ | ⟨-, -, -, rfl⟩ | ⟨-, -, -, rfl⟩ := exec_feed_cases hf h
  · rfl
  · rfl
  all_goals exact bufByte_store_of_ne _ (release s) hj

/-- An introducer and a discarded byte store nothing. -/
theorem exec_feed_buf_of_not_stored {i : Instr} {b : Byte} {s t : State} (hf : fedByte i = some b)
    (h : exec i s = .next t) (hb : b = Config.ESC ∨ (idle (release s) = true ∧ b ≠ Config.START)) :
    SameBuf s t := by
  have not_stored (ho : isOrdinary b (release s)) : False := by
    obtain ⟨hstart, hesc, -⟩ := ho
    exact hb.elim hesc fun hd => hd.2 (hstart hd.1)
  obtain ⟨-, -, rfl⟩ | ⟨-, -, rfl⟩ | ⟨hi, -, hc, -, rfl⟩ | ⟨ho, -, -, rfl⟩ | ⟨ho, -, -, rfl⟩ := exec_feed_cases hf h
  · exact bufByte_release s
  · exact bufByte_release s
  · exact absurd hb (not_or.2 ⟨not_esc_of_isEscapeCode hc, fun hd => by simp [hi] at hd⟩)
  · exact (not_stored ho).elim
  · exact (not_stored ho).elim

/-- Settles O25: the release and the overflow reset leave every byte, and a store changes one. -/
theorem feedFrame : Obligations.FeedFrame := by
  intro i b s t hf h
  obtain ⟨hout, hown⟩ := exec_feed_keeps hf h
  exact ⟨fun a => by rw [hout], hown, exec_feed_buf_of_not_stored hf h, fun _ => exec_feed_buf hf h⟩

/-! ### `escape_pending` and `complete` after a FEED -/

/-- After the release the block is not Idle exactly when a frame was in progress. -/
theorem idle_release_eq_false_iff (s : State) : idle (release s) = false ↔ mode s = .accumulating := by
  rw [mode_accumulating_iff]
  cases hr : ready s with
  | false => simp [release_of_not_ready hr]
  | true => simp [release_of_ready hr]

/-- No escape is pending in an Idle block (R111). -/
theorem escapePending_of_idle {s : State} (h : Inv s) (hi : idle s = true) : s.escapePending = false := by
  refine eq_false_of_ne_true fun he => ?_
  obtain ⟨hpos, -⟩ := h.escape_accumulating he
  exact absurd ((idle_iff_toNat s).1 hi) (Nat.ne_of_gt hpos)

/-- Settles O26: only the introducer's way sets it, and it is the way of an ESC after a release that left a frame in
progress; every store clears it, and a discarded byte finds it clear. -/
theorem escapePendingAfterFeed : Obligations.EscapePendingAfterFeed := by
  intro i b s t hinv hf h
  rw [← idle_release_eq_false_iff]
  obtain ⟨hi, -, rfl⟩ | ⟨hi, hb, rfl⟩ | ⟨-, -, hc, -, rfl⟩ | ⟨⟨-, hb, -⟩, -, -, rfl⟩ | ⟨⟨-, hb, -⟩, -, -, rfl⟩ :=
    exec_feed_cases hf h
  · simp [hi, escapePending_of_idle (inv_release hinv) hi]
  · exact iff_of_true rfl ⟨hb, hi⟩
  · exact iff_of_false (by simp) fun ⟨hb, _⟩ => not_esc_of_isEscapeCode hc hb
  · exact iff_of_false (by simp) fun ⟨hesc, _⟩ => hb hesc
  · exact iff_of_false (by simp) fun ⟨hesc, _⟩ => hb hesc

/-- A store that completes no frame leaves none complete. -/
theorem ready_store (v : Byte) {s : State} (hinv : Inv s) (hr : ready s = false) :
    ready (pushByte v (makeRoom (setEscape false s))) = false :=
  ready_eq_false_of_length_zero (inv_beforeStore hinv hr).2

/-- Every way a FEED can end leaves `Ready` as the `complete` it returns. -/
theorem ready_of_exec_feed {i : Instr} {b : Byte} {s t : State} (hinv : Inv s) (hf : fedByte i = some b)
    (h : exec i s = .next t) : ∃ overflow, t.result = .fed (ready t) overflow := by
  have hstore (v : Byte) := ready_store v (inv_release hinv) (ready_release s)
  obtain ⟨-, -, rfl⟩ | ⟨-, -, rfl⟩ | ⟨-, -, -, -, rfl⟩ | ⟨-, -, -, rfl⟩ | ⟨-, -, -, rfl⟩ := exec_feed_cases hf h
  · exact ⟨false, by simp⟩
  · exact ⟨false, by simp⟩
  · exact ⟨atCapacity (release s), by simp [hstore]⟩
  · obtain ⟨-, -, -, hr⟩ := feedCompletesFrame.2 i b s _ _ hf h rfl
    exact ⟨atCapacity (release s), by rw [hr]; rfl⟩
  · exact ⟨atCapacity (release s), by simp [hstore]⟩

/-- An overflow reset leaves one byte, which is below the floor of a completion. -/
theorem result_ne_complete_overflow {i : Instr} {b : Byte} {s t : State} (hf : fedByte i = some b)
    (h : exec i s = .next t) : t.result ≠ .fed true true := by
  intro hres
  obtain ⟨hfull, hr, hb⟩ := feedOverflowReset.2 i b s t true hf h hres
  obtain ⟨-, -, -, hresult⟩ := (feedGives_full hf hr hfull hb).leaves h
  cases hresult.symm.trans hres

/-- Settles O31: `complete` is `Ready` afterwards, and never comes with an overflow. -/
theorem completeResultMatchesReady : Obligations.CompleteResultMatchesReady := by
  intro i b s t hinv hf h
  have hboth := result_ne_complete_overflow hf h
  obtain ⟨overflow, hres⟩ := ready_of_exec_feed hinv hf h
  rw [hres] at hboth ⊢
  cases hr : ready t with
  | false => simp
  | true =>
    have hovf : overflow = false := eq_false_of_ne_true fun ho => hboth (by rw [hr, ho])
    simp [hovf]

/-- A store at an index that does not exist stops the model, whichever way it is reached. -/
theorem feedReleased_stops {b : Byte} {s : State} (hi : idle s = false) (hb : b ≠ Config.ESC)
    (hout : ¬ appendIndex (setEscape false s) < Config.C) :
    feedReleased b s = .fault (.bufIndexOutOfRange (appendIndex (setEscape false s))) := by
  have hstop (v : Byte) :
      appendByte v (setEscape false s) = .error (.bufIndexOutOfRange (appendIndex (setEscape false s))) :=
    if_neg hout
  cases hc : s.escapePending && isEscapeCode b <;>
    simp [feedReleased, hi, hb, hc, feedEscaped, feedOrdinary, hstop]

/-- Settles O53: past a `write_position` above `C` no room is made, and the store stops. -/
theorem storeOutsideBufferStops : Obligations.StoreOutsideBufferStops := by
  intro i b s hf hr hw hb
  have hindex : appendIndex (setEscape false s) = s.writePosition.toNat :=
    appendIndex_of_ne (Nat.ne_of_gt hw)
  rw [exec_of_fedByte hf, feedByte, release_of_not_ready hr, ← hindex]
  exact feedReleased_stops (idle_eq_false_of_pos (Nat.zero_lt_of_lt hw)) hb (hindex ▸ Nat.not_lt.2 (Nat.le_of_lt hw))

/-! ### Traces under the invariant -/

/-- From a state that meets the invariant every trace completes, and keeps it. -/
theorem runOps_completes (ops : List Instr) {s : State} (hinv : Inv s) :
    ∃ rs t, runOps ops s = .next (rs, t) ∧ Inv t := by
  induction ops generalizing s with
  | nil => exact ⟨[], s, rfl, hinv⟩
  | cons i is ih =>
    obtain ⟨u, hu⟩ := exec_completes i hinv.writePosition_le
    obtain ⟨rs, t, ht, hinvt⟩ := ih (inv_of_exec hinv hu)
    exact ⟨_, t, runOps_cons hu ht, hinvt⟩

/-! ### Extraction after CLEAR -/

/-- Settles O46: CLEAR leaves BUF, which is all XCSUM reads, and leaves no frame and nothing to scan. -/
theorem staleBytesStayReadable : Obligations.StaleBytesStayReadable := by
  intro s c hclear
  cases exec_clear_eq_next hclear
  refine ⟨fun p t h => ?_, fun cap => ⟨_, exec_xtel_of_not_ready cap (ready_clearBlock s), rfl⟩, fun a b cap => ?_⟩
  · obtain ⟨u, hu, hresult, -⟩ := exec_xcsum_congr (bufByte_clearBlock s) h
    exact ⟨u, (exec_setResult _ _ _).trans hu, hresult⟩
  · have hnothing : NoTerminator (clearBlock s) a.toNat := fun _ _ hj => absurd hj (Nat.not_lt_zero _)
    have hzero : (clearBlock s).writePosition.toNat - a.toNat = 0 := Nat.zero_sub _
    rw [exec_setResult, exec_xaddr_not_found (Nat.zero_le _) hnothing (.inl hzero)]
    obtain ⟨u, hu, hresult, -⟩ := copyOut_delivers (clearBlock s) b.toNat 0 (.inl hzero)
    exact ⟨u, hu, hresult⟩

/-- Settles O40: under the invariant extractions complete, and they leave the block. -/
theorem readyHoldsUntilNextStreamOperation : Obligations.ReadyHoldsUntilNextStreamOperation := by
  intro s ops hinv hops
  obtain ⟨rs, t, h, -⟩ := runOps_completes ops hinv
  obtain ⟨hregs, hbuf, hown⟩ := runOps_extractions_sameBlock hops h
  exact ⟨rs, t, h, ready_congr hregs.1 hregs.2.1, hregs, hbuf, hown⟩

/-! ### Write permissions (R26) -/

/-- `write_position` and `frame_length` are those of `s`, or both cleared. -/
def KeptOrCleared (s t : State) : Prop :=
  (t.writePosition = s.writePosition ∧ t.frameLength = s.frameLength) ∨ (t.writePosition = 0 ∧ t.frameLength = 0)

theorem keptOrCleared_release (s : State) : KeptOrCleared s (release s) := by
  unfold release
  split
  · exact .inr ⟨rfl, rfl⟩
  · exact .inl ⟨rfl, rfl⟩

theorem keptOrCleared_makeRoom (s : State) : KeptOrCleared s (makeRoom s) := by
  unfold makeRoom
  split
  · exact .inr ⟨rfl, rfl⟩
  · exact .inl ⟨rfl, rfl⟩

theorem KeptOrCleared.trans {s t u : State} (h1 : KeptOrCleared s t) (h2 : KeptOrCleared t u) :
    KeptOrCleared s u := by
  obtain ⟨hw2, hl2⟩ | h2 := h2
  · rwa [KeptOrCleared, hw2, hl2]
  · exact .inr h2

theorem KeptOrCleared.writePosition {s t : State} (h : KeptOrCleared s t) :
    t.writePosition = s.writePosition ∨ t.writePosition = 0 := h.imp And.left And.left

theorem KeptOrCleared.frameLength {s t : State} (h : KeptOrCleared s t) :
    t.frameLength = s.frameLength ∨ t.frameLength = 0 := h.imp And.right And.right

/-- The state FEED stores from. -/
theorem keptOrCleared_beforeStore (s : State) : KeptOrCleared s (makeRoom (setEscape false (release s))) :=
  (keptOrCleared_release s).trans (keptOrCleared_makeRoom (setEscape false (release s)))

/-- A store of FEED advances `write_position` from where it was, or from 0. -/
theorem store_writePosition (v : Byte) {s : State} (hlt : appendIndex (setEscape false (release s)) < Config.C) :
    (pushByte v (makeRoom (setEscape false (release s)))).writePosition.toNat = s.writePosition.toNat + 1 ∨
    (pushByte v (makeRoom (setEscape false (release s)))).writePosition = 1 := by
  obtain hw | hw := (keptOrCleared_beforeStore s).writePosition
  · exact .inl ((pushByte_writePosition_toNat v hlt).trans (by rw [hw]))
  · exact .inr (by rw [pushByte_writePosition, hw]; rfl)

/-- FEED leaves the two registers, clears them, or stores; it sets `frame_length` to `write_position` only. -/
theorem exec_feed_registers {i : Instr} {b : Byte} {s t : State} (hf : fedByte i = some b)
    (h : exec i s = .next t) :
    (t.writePosition = s.writePosition ∨ t.writePosition = 0 ∨
      t.writePosition.toNat = s.writePosition.toNat + 1 ∨ t.writePosition = 1) ∧
    (t.frameLength = s.frameLength ∨ t.frameLength = 0 ∨ t.frameLength = t.writePosition) := by
  have hwp := (keptOrCleared_release s).writePosition
  have hfl := (keptOrCleared_release s).frameLength
  have hflStore := (keptOrCleared_beforeStore s).frameLength
  obtain ⟨-, -, rfl⟩ | ⟨-, -, rfl⟩ | ⟨-, -, -, hlt, rfl⟩ | ⟨-, hlt, -, rfl⟩ | ⟨-, hlt, -, rfl⟩ := exec_feed_cases hf h
  · exact ⟨hwp.imp_right .inl, hfl.imp_right .inl⟩
  · exact ⟨hwp.imp_right .inl, hfl.imp_right .inl⟩
  · exact ⟨.inr (.inr (store_writePosition (escapedLiteral b) hlt)), hflStore.imp_right .inl⟩
  · exact ⟨.inr (.inr (store_writePosition b hlt)), .inr (.inr rfl)⟩
  · exact ⟨.inr (.inr (store_writePosition b hlt)), hflStore.imp_right .inl⟩

/-- FEED stores at the old `write_position`, or at 0. -/
theorem exec_feed_store_index {i : Instr} {b : Byte} {s t : State} (hf : fedByte i = some b)
    (h : exec i s = .next t) : ∃ k, (k = s.writePosition.toNat ∨ k = 0) ∧ ∀ j, j ≠ k → bufByte t j = bufByte s j := by
  refine ⟨appendIndex (setEscape false (release s)), ?_, fun _ => exec_feed_buf hf h⟩
  obtain hw | hw := (keptOrCleared_beforeStore s).writePosition
  · exact .inl (by rw [appendIndex, hw])
  · exact .inr (by rw [appendIndex, hw]; rfl)

/-- Only XTEL and XADDR write OUT. -/
theorem exec_out {i : Instr} {s t : State} (h : exec i s = .next t) (hxtel : ∀ cap, i ≠ .xtel cap)
    (hxaddr : ∀ a b c, i ≠ .xaddr a b c) : t.out = s.out := by
  cases hfed : fedByte i with
  | some b => exact (exec_feed_keeps hfed h).1
  | none =>
    cases i <;> simp only [fedByte, reduceCtorEq] at hfed
    case clear => cases exec_clear_eq_next h; rfl
    case xtel cap => exact absurd rfl (hxtel cap)
    case xaddr a b c => exact absurd rfl (hxaddr a b c)
    case xcsum p => obtain ⟨-, rfl⟩ | ⟨-, rfl⟩ := exec_xcsum_cases h <;> rfl
    case reservedOp op => cases exec_reservedOp_eq_next h; rfl

theorem exec_sameOwn {i : Instr} {s t : State} (h : exec i s = .next t) : SameOwn s t := by
  cases hfed : fedByte i with
  | some b => exact (exec_feed_keeps hfed h).2
  | none =>
    cases hext : isExtraction i with
    | true => exact (exec_extraction_sameBlock hext h).2.2
    | false =>
      cases i <;> simp only [fedByte, isExtraction, reduceCtorEq] at hfed hext
      case clear => cases exec_clear_eq_next h; exact ⟨rfl, rfl⟩
      case reservedOp op => cases exec_reservedOp_eq_next h; exact ⟨rfl, rfl⟩

/-- Nothing is delivered where OUT stays. -/
theorem deliveredAt_zero {s t : State} (h : t.out = s.out) (dst src : Nat) : DeliveredAt s t dst src 0 :=
  ⟨fun _ hk => absurd hk (Nat.not_lt_zero _), fun a _ => by rw [h]⟩

theorem exec_xtel_deliveredAt {cap : Operand} {s t : State} (h : exec (.xtel cap) s = .next t) :
    DeliveredAt s t 0 0
      (if ready s = true ∧ s.frameLength.toNat - 1 ≤ cap.toNat then s.frameLength.toNat - 1 else 0) := by
  obtain ⟨hr, rfl⟩ | ⟨-, hcap, rfl⟩ | ⟨hr, hcap, bs, hlength, hbytes, rfl⟩ := exec_xtel_cases h
  · rw [if_neg (by simp [hr])]
    exact deliveredAt_zero rfl 0 0
  · rw [if_neg fun hroom => Nat.not_lt.2 hroom.2 hcap]
    exact deliveredAt_zero rfl 0 0
  · rw [if_pos ⟨hr, hcap⟩]
    exact deliveredAt_deliver _ hlength hbytes

theorem exec_xaddr_deliveredAt {a b c : Operand} {s t : State} {n : Nat} (hw : s.writePosition.toNat ≤ Config.C)
    (hn : ScanTakes s a.toNat n) (h : exec (.xaddr a b c) s = .next t) :
    DeliveredAt s t b.toNat a.toNat (if b.toNat + n ≤ c.toNat then n else 0) := by
  obtain ⟨m, found, hm, -, -, hexec⟩ := execXaddr_cases a b c s hw
  cases scanTakes_unique hn hm
  rw [hexec] at h
  split at h
  · next hsmall =>
    rw [if_neg (Nat.not_le.2 hsmall.2), raiseFault_eq_next h]
    exact deliveredAt_zero rfl _ _
  · next hfits =>
    have hcount : (if b.toNat + n ≤ c.toNat then n else 0) = n := by
      split <;> omega
    obtain ⟨bs, hlength, hbytes, rfl⟩ := copyOut_eq_next h
    rw [hcount]
    exact deliveredAt_deliver _ hlength hbytes

/-- Settles O48: one rule for each row of the table of R26. -/
theorem writePermissions : Obligations.WritePermissions := by
  intro i s t h
  refine ⟨fun hext => ?_, ?_, ?_, fun b hf => ?_, fun hxtel hxaddr a => ?_, ?_, ?_, exec_sameOwn h⟩
  · obtain ⟨hregs, hbuf, -⟩ := exec_extraction_sameBlock hext h
    exact ⟨hregs, hbuf⟩
  · rintro rfl
    cases exec_clear_eq_next h
    exact ⟨rfl, rfl, rfl, bufByte_clearBlock s⟩
  · rintro op rfl
    cases exec_reservedOp_eq_next h
    exact sameAllButResult_setResult _ s
  · obtain ⟨hwp, hfl⟩ := exec_feed_registers hf h
    exact ⟨hwp, hfl, exec_feed_store_index hf h⟩
  · rw [exec_out h hxtel hxaddr]
  · rintro cap rfl
    exact exec_xtel_deliveredAt h
  · rintro a b c n rfl hw hn
    exact exec_xaddr_deliveredAt hw hn h

/-! ### OUT is never read (R41) -/

/-- `s` with another output buffer. -/
def setOut (m : Memory) (s : State) : State := { s with out := m }

theorem release_setOut (m : Memory) (s : State) : release (setOut m s) = setOut m (release s) := by
  unfold release
  rw [show ready (setOut m s) = ready s from rfl]
  split <;> rfl

theorem makeRoom_setOut (m : Memory) (s : State) : makeRoom (setOut m s) = setOut m (makeRoom s) := by
  unfold makeRoom
  rw [show atCapacity (setOut m s) = atCapacity s from rfl]
  split <;> rfl

/-- The store of FEED goes its way whatever OUT holds. -/
theorem store_setOut (m : Memory) (v : Byte) (s : State) :
    pushByte v (makeRoom (setEscape false (setOut m s))) = setOut m (pushByte v (makeRoom (setEscape false s))) := by
  rw [show setEscape false (setOut m s) = setOut m (setEscape false s) from rfl, makeRoom_setOut]
  rfl

theorem sameRegs_setOut (m : Memory) (s : State) : SameRegs s (setOut m s) := ⟨rfl, rfl, rfl⟩

/-- After the release FEED does the same whatever OUT holds, which it leaves. -/
theorem feedReleased_setOut (m : Memory) {b : Byte} {s t : State} (h : feedReleased b s = .next t) :
    feedReleased b (setOut m s) = .next (setOut m t) := by
  have hindex : appendIndex (setEscape false (setOut m s)) = appendIndex (setEscape false s) :=
    sameRegs_appendIndex (sameRegs_setEscape (sameRegs_setOut m s) false)
  obtain ⟨hi, hb, rfl⟩ | ⟨hi, rfl, rfl⟩ | ⟨hi, he, hc, hlt, rfl⟩ | ⟨ho, hlt, hcomp, rfl⟩ | ⟨ho, hlt, hcomp, rfl⟩ :=
    feedReleased_cases h
  · exact feedReleased_discard (s := setOut m s) hi hb
  · exact feedReleased_esc (s := setOut m s) hi
  · rw [feedReleased_escaped (s := setOut m s) hi he hc (hindex ▸ hlt), store_setOut]
    rfl
  all_goals
    rw [feedReleased_ordinary (s := setOut m s) ho (hindex ▸ hlt), store_setOut,
      sameRegs_completes (sameRegs_setOut m _), hcomp]
    rfl

/-- From `s` with OUT replaced by `m`, the outcome `o` is `t` but for OUT, to which the same bytes were written as in
going from `s` to `t`. -/
def WritesAlike (o : Host.Outcome State Fault Refusal) (m : Memory) (s t : State) : Prop :=
  ∃ dst bs, t.out = Memory.writeList s.out dst bs ∧ o = .next (setOut (Memory.writeList m dst bs) t)

/-- An operation that writes nothing to OUT. -/
theorem writesAlike_of_same_out {o : Host.Outcome State Fault Refusal} {m : Memory} {s t : State}
    (hout : t.out = s.out) (ho : o = .next (setOut m t)) : WritesAlike o m s t := ⟨0, [], hout, ho⟩

theorem exec_feed_writesAlike {i : Instr} {b : Byte} {s t : State} (m : Memory) (hf : fedByte i = some b)
    (h : exec i s = .next t) : WritesAlike (exec i (setOut m s)) m s t := by
  refine writesAlike_of_same_out (exec_feed_keeps hf h).1 ?_
  rw [exec_of_fedByte hf, feedByte] at h ⊢
  rw [release_setOut]
  exact feedReleased_setOut m h

theorem copyOut_writesAlike {s t : State} {src n dst count : Nat} (m : Memory)
    (h : copyOut s src n dst count = .next t) : WritesAlike (copyOut (setOut m s) src n dst count) m s t := by
  have hread : readRange (setOut m s) src n = readRange s src n := readRange_congr fun _ _ _ => rfl
  unfold copyOut at h ⊢
  rw [hread]
  cases hbytes : readRange s src n with
  | error f => rw [hbytes] at h; cases h
  | ok bs =>
    rw [hbytes] at h
    cases h
    exact ⟨dst, bs, rfl, rfl⟩

theorem exec_xtel_writesAlike {cap : Operand} {s t : State} (m : Memory) (h : exec (.xtel cap) s = .next t) :
    WritesAlike (exec (.xtel cap) (setOut m s)) m s t := by
  obtain ⟨hr, rfl⟩ | ⟨hr, hcap, rfl⟩ | ⟨hr, hcap, -⟩ := exec_xtel_cases h
  · exact writesAlike_of_same_out rfl (exec_xtel_of_not_ready (s := setOut m s) cap hr)
  · exact writesAlike_of_same_out rfl (exec_xtel_of_no_room (s := setOut m s) hr hcap)
  · rw [exec_xtel_of_room (s := setOut m s) hr hcap]
    rw [exec_xtel_of_room hr hcap] at h
    exact copyOut_writesAlike m h

theorem exec_xaddr_writesAlike {a b c : Operand} {s t : State} (m : Memory)
    (h : exec (.xaddr a b c) s = .next t) : WritesAlike (exec (.xaddr a b c) (setOut m s)) m s t := by
  have hscan' : scanField (setOut m s) a.toNat ((setOut m s).writePosition.toNat - a.toNat) =
      scanField s a.toNat (s.writePosition.toNat - a.toNat) := scanField_congr fun _ _ _ => rfl
  obtain ⟨n, found, hscan, -⟩ := exec_xaddr_cases h
  simp only [exec, execXaddr, hscan', hscan] at h ⊢
  split at h
  · next hsmall =>
    rw [if_pos hsmall]
    cases raiseFault_eq_next h
    exact writesAlike_of_same_out rfl rfl
  · next hfits =>
    rw [if_neg hfits]
    exact copyOut_writesAlike m h

/-- No operation reads OUT, and what it writes there does not depend on it. -/
theorem exec_writesAlike {i : Instr} {s t : State} (m : Memory) (h : exec i s = .next t) :
    WritesAlike (exec i (setOut m s)) m s t := by
  cases hfed : fedByte i with
  | some b => exact exec_feed_writesAlike m hfed h
  | none =>
    cases i <;> simp only [fedByte, reduceCtorEq] at hfed
    case clear => cases exec_clear_eq_next h; exact writesAlike_of_same_out rfl rfl
    case xtel cap => exact exec_xtel_writesAlike m h
    case xaddr a b c => exact exec_xaddr_writesAlike m h
    case xcsum p =>
      obtain ⟨hp, rfl⟩ | ⟨hp, rfl⟩ := exec_xcsum_cases h
      · exact writesAlike_of_same_out rfl (exec_xcsum_of_outside _ hp)
      · exact writesAlike_of_same_out rfl (exec_xcsum_of_inside _ hp)
    case reservedOp op => cases exec_reservedOp_eq_next h; exact writesAlike_of_same_out rfl rfl

/-- A list written into two memories leaves each address with the written byte in both, or with its old one in
each. -/
theorem Memory.read_writeList_alike (bs : List Byte) (m m' : Memory) (dst a : Nat) :
    Memory.read (Memory.writeList m' dst bs) a = Memory.read (Memory.writeList m dst bs) a ∨
    (Memory.read (Memory.writeList m dst bs) a = Memory.read m a ∧
      Memory.read (Memory.writeList m' dst bs) a = Memory.read m' a) := by
  by_cases h : dst ≤ a ∧ a < dst + bs.length
  · exact .inl (by rw [Memory.read_writeList, Memory.read_writeList, if_pos h, if_pos h])
  · exact .inr ⟨by rw [Memory.read_writeList, if_neg h], by rw [Memory.read_writeList, if_neg h]⟩

/-- Settles O52: whatever OUT holds, the operation writes the same list of bytes to it and leaves the same state. -/
theorem outIsNeverRead : Obligations.OutIsNeverRead := by
  intro i s t m h
  obtain ⟨dst, bs, hout, h'⟩ := exec_writesAlike m h
  refine ⟨_, h', sameRegs_setOut _ t, rfl, ⟨rfl, rfl⟩, rfl, fun a => ?_⟩
  rw [hout]
  exact Memory.read_writeList_alike bs s.out m dst a

/-! ### The stuffing encoder (R56) -/

theorem isEscapeCode_iff {c : Byte} : isEscapeCode c = true ↔ c = Config.ESC_END ∨ c = Config.ESC_ESC := by
  simp [isEscapeCode]

/-- A payload byte goes out as an introducer and the code that stands for it, or as itself. -/
theorem stuffByte_cases (x : Byte) :
    (∃ c, isEscapeCode c = true ∧ escapedLiteral c = x ∧ stuffByte x = [Config.ESC, c]) ∨
    (x ≠ Config.END ∧ x ≠ Config.ESC ∧ stuffByte x = [x]) := by
  by_cases hend : x = Config.END
  · exact .inl ⟨Config.ESC_END, by decide, by rw [hend]; rfl, by rw [hend]; rfl⟩
  by_cases hesc : x = Config.ESC
  · exact .inl ⟨Config.ESC_ESC, by decide, by rw [hesc]; rfl, by rw [hesc]; rfl⟩
  · exact .inr ⟨hend, hesc, by rw [stuffByte, if_neg hend, if_neg hesc]⟩

theorem stuff_append (xs ys : List Byte) : stuff (xs ++ ys) = stuff xs ++ stuff ys := by
  induction xs with
  | nil => rfl
  | cons x xs ih => rw [List.cons_append, stuff, stuff, ih, List.append_assoc]

theorem end_not_mem_stuffByte (x : Byte) : Config.END ∉ stuffByte x := by
  obtain ⟨c, hc, -, hx⟩ | ⟨hend, -, hx⟩ := stuffByte_cases x
  · rw [hx]
    obtain rfl | rfl := isEscapeCode_iff.1 hc <;> decide
  · rw [hx, List.mem_singleton]
    exact hend.symm

theorem end_not_mem_stuff (payload : List Byte) : Config.END ∉ stuff payload := by
  induction payload with
  | nil => exact List.not_mem_nil
  | cons x xs ih => exact fun h => (List.mem_append.1 h).elim (end_not_mem_stuffByte x) ih

/-- An introducer is never a code, so a position that holds one is the first of an escape sequence. -/
theorem escapeCode_after_esc (payload : List Byte) (k : Nat) (h : (stuff payload)[k]? = some Config.ESC) :
    ∃ c, isEscapeCode c = true ∧ (stuff payload)[k + 1]? = some c := by
  induction payload generalizing k with
  | nil => cases h
  | cons x xs ih =>
    obtain ⟨c, hc, -, hx⟩ | ⟨-, hesc, hx⟩ := stuffByte_cases x
    · rw [stuff, hx] at h ⊢
      match k with
      | 0 => exact ⟨c, hc, rfl⟩
      | 1 => exact absurd (Option.some.inj h) (not_esc_of_isEscapeCode hc)
      | k + 2 => exact ih k h
    · rw [stuff, hx] at h ⊢
      match k with
      | 0 => exact absurd (Option.some.inj h) hesc
      | k + 1 => exact ih k h

/-- Settles O35: a payload byte leaves no END, and an introducer only before a code. -/
theorem stuffedPayloadHidesMarkers : Obligations.StuffedPayloadHidesMarkers := by
  refine fun payload => ⟨end_not_mem_stuff payload, fun k hk => ?_⟩
  obtain ⟨c, hc, hnext⟩ := escapeCode_after_esc payload k hk
  rw [hnext]
  exact (isEscapeCode_iff.1 hc).imp (congrArg some) (congrArg some)

/-! ### Feeding a stuffed payload -/

/-- A frame is in progress with `n` bytes stored and no escape pending. -/
structure InFrame (s : State) (n : Nat) : Prop where
  inv : Inv s
  mode_eq : mode s = .accumulating
  escape_eq : s.escapePending = false
  stored : s.writePosition.toNat = n

/-- Feeding the bytes leads from `s` to `t`, every result being (false, false). -/
def Absorbs (bytes : List Byte) (s t : State) : Prop :=
  runOps (bytes.map Instr.feed) s = .next (List.replicate bytes.length (.fed false false), t)

theorem Absorbs.append {as bs : List Byte} {s t u : State} (h1 : Absorbs as s t) (h2 : Absorbs bs t u) :
    Absorbs (as ++ bs) s u := by
  rw [Absorbs, List.map_append, List.length_append, ← List.replicate_append_replicate]
  exact runOps_append h1 h2

theorem absorbs_single {b : Byte} {s t : State} (h : exec (.feed b) s = .next t)
    (hresult : t.result = .fed false false) : Absorbs [b] s t := by
  have := runOps_single h
  rwa [hresult] at this

theorem StoredAt.of_sameBuf {s u t : State} {k : Nat} {v : Byte} (h : StoredAt u t k v) (hbuf : SameBuf s u) :
    StoredAt s t k v := ⟨h.1, fun j hj => (h.2 j hj).trans (hbuf j)⟩

/-- A row that stores and completes no frame leaves one in progress. -/
theorem FeedGives.inFrame {i : Instr} {s : State} {n k : Nat} {v : Byte} {complete overflow : Bool}
    (hrow : FeedGives i s n 0 false (some (k, v)) complete overflow) (hpos : 0 < n) (hinv : Inv s) :
    ∃ t, exec i s = .next t ∧ t.result = .fed complete overflow ∧ InFrame t n ∧ StoredAt s t k v := by
  have ⟨t, h, _, _, _, hstored, _, _, hresult⟩ := hrow
  obtain ⟨hm, he, hw⟩ := hrow.mode_accumulating hpos h
  exact ⟨t, h, hresult, ⟨inv_of_exec hinv h, hm, he, hw⟩, hstored⟩

/-- START opens a frame in an Idle block (R69). -/
theorem absorbs_start {s : State} (hinv : Inv s) (hm : mode s = .idle) :
    ∃ t, Absorbs [Config.START] s t ∧ InFrame t 1 ∧ StoredAt s t 0 Config.START := by
  have hw : s.writePosition = 0 := (idle_iff s).1 ((mode_idle_iff s).1 hm)
  obtain ⟨-, hstart⟩ := feedIdleTest (.feed Config.START) Config.START s rfl hw
  rw [frameLength_eq_zero hinv (not_ready_of_idle hw)] at hstart
  obtain ⟨t, h, hresult, ht, hstored⟩ := (hstart rfl).inFrame Nat.one_pos hinv
  exact ⟨t, absorbs_single h hresult, ht, hstored⟩

section InFrame

variable {s : State} {n : Nat} (hs : InFrame s n)
include hs

/-- An escape sequence stores the literal of its code (R49). -/
theorem InFrame.absorbs_escapeSequence {c : Byte} (hc : isEscapeCode c = true) (hn : n < Config.C) :
    ∃ t, Absorbs [Config.ESC, c] s t ∧ InFrame t (n + 1) ∧ StoredAt s t n (escapedLiteral c) := by
  obtain ⟨hinv, hm, -, rfl⟩ := hs
  obtain ⟨hr, hw, hfl⟩ := regs_of_accumulating hinv hm
  obtain ⟨u, hu, hwu, hflu, heu, hbuf, -, -, hresult⟩ := feedEscapeIntroducer (.feed Config.ESC) s rfl hr hw
  have hru : ready u = false := ready_eq_false_of_length_zero (hflu.trans hfl)
  rw [← BitVec.toNat_ne_iff_ne] at hw
  have hwu0 : u.writePosition ≠ 0 := by rwa [← BitVec.toNat_ne_iff_ne, hwu]
  have hrow := (feedGives_escaped (i := .feed c) rfl hc hru hwu0 heu).1 (hwu ▸ hn)
  rw [hwu, hflu, hfl] at hrow
  obtain ⟨t, ht, hresult', hframe, hstored⟩ := hrow.inFrame (Nat.succ_pos _) (inv_of_exec hinv hu)
  exact ⟨t, (absorbs_single hu hresult).append (absorbs_single ht hresult'), hframe, hstored.of_sameBuf hbuf⟩

/-- A byte that is no ESC and completes no frame is stored as it is (R74, R75). -/
theorem InFrame.absorbs_byte {x : Byte} (hx : x ≠ Config.ESC) (hn : n < Config.C)
    (hshort : ¬ (x = Config.END ∧ Config.MINLEN < n + 1)) :
    ∃ t, Absorbs [x] s t ∧ InFrame t (n + 1) ∧ StoredAt s t n x := by
  obtain ⟨hinv, hm, he, rfl⟩ := hs
  obtain ⟨hr, hw, hfl⟩ := regs_of_accumulating hinv hm
  have hrow := (feedOrdinaryByte (.feed x) x s rfl hr hw hx (fun h => by simp [he] at h)).1 hn hshort
  rw [hfl] at hrow
  obtain ⟨t, h, hresult, hframe, hstored⟩ := hrow.inFrame (Nat.succ_pos _) hinv
  exact ⟨t, absorbs_single h hresult, hframe, hstored⟩

/-- The wire bytes of a payload byte store that byte. -/
theorem InFrame.absorbs_stuffByte (x : Byte) (hn : n < Config.C) :
    ∃ t, Absorbs (stuffByte x) s t ∧ InFrame t (n + 1) ∧ StoredAt s t n x := by
  obtain ⟨c, hc, rfl, hx⟩ | ⟨hend, hesc, hx⟩ := stuffByte_cases x
  · rw [hx]
    exact hs.absorbs_escapeSequence hc hn
  · rw [hx]
    exact hs.absorbs_byte hesc hn fun h => hend h.1

/-- An END above the floor completes the frame, and BUF keeps the bytes before it. -/
theorem InFrame.end_completes (hn : n < Config.C) (hfloor : Config.MINLEN ≤ n) :
    ∃ t, exec (.feed Config.END) s = .next t ∧ t.result = .fed true false ∧ Inv t ∧ mode t = .frameReady ∧
      t.frameLength.toNat = n + 1 ∧ ∀ j, j < n → bufByte t j = bufByte s j := by
  obtain ⟨hinv, hm, -, rfl⟩ := hs
  have hrow := feedGives_end_of_accumulating (i := .feed Config.END) rfl hm hn hfloor
  have ⟨t, h, _, _, _, hstored, _, _, hresult⟩ := hrow
  obtain ⟨hready, hlength⟩ := hrow.mode_frameReady (Nat.succ_pos _) h
  exact ⟨t, h, hresult, inv_of_exec hinv h, hready, hlength, fun j hj => hstored.2 j (Nat.ne_of_lt hj)⟩

end InFrame

/-- `bytes` stand in BUF from index `n` upward. -/
def Holds (s : State) (n : Nat) (bytes : List Byte) : Prop :=
  ∀ k, k < bytes.length → some (bufByte s (n + k)) = bytes[k]?

theorem Holds.cons {s : State} {n : Nat} {x : Byte} {xs : List Byte} (hx : bufByte s n = x)
    (hxs : Holds s (n + 1) xs) : Holds s n (x :: xs) := by
  intro k hk
  cases k with
  | zero => simp [hx]
  | succ k => rw [List.getElem?_cons_succ, ← hxs k (Nat.lt_of_succ_lt_succ hk), Nat.add_right_comm, Nat.add_assoc]

/-- A stuffed payload that fits is stored byte for byte, after what was stored before (R116). -/
theorem InFrame.absorbs_stuff {s : State} {n : Nat} (hs : InFrame s n) (payload : List Byte)
    (hn : n + payload.length ≤ Config.C) :
    ∃ t, Absorbs (stuff payload) s t ∧ InFrame t (n + payload.length) ∧
      (∀ j, j < n → bufByte t j = bufByte s j) ∧ Holds t n payload := by
  induction payload generalizing s n with
  | nil => exact ⟨s, rfl, hs, fun _ _ => rfl, fun k hk => absurd hk (Nat.not_lt_zero k)⟩
  | cons x xs ih =>
    rw [List.length_cons] at hn
    obtain ⟨u, hu, hframe, hstored⟩ := hs.absorbs_stuffByte x (by omega)
    obtain ⟨t, ht, hframe', hbefore, hholds⟩ := ih hframe (by omega)
    refine ⟨t, hu.append ht, ?_, fun j hj => ?_, Holds.cons ?_ hholds⟩
    · rwa [List.length_cons, ← Nat.add_assoc, Nat.add_right_comm]
    · rw [hbefore j (by omega), hstored.2 j (by omega)]
    · rw [hbefore n (by omega), hstored.1]

/-- A stuffed payload and an END, after one stored byte, complete a frame of that byte, the payload and END. -/
theorem InFrame.stuff_end_completes {s : State} (hs : InFrame s 1) {payload : List Byte}
    (hlow : Config.MINLEN - 1 ≤ payload.length) (hhigh : payload.length ≤ Config.C - 2) :
    ∃ t, runOps ((stuff payload ++ [Config.END]).map Instr.feed) s =
        .next (List.replicate (stuff payload).length (.fed false false) ++ [.fed true false], t) ∧
      Inv t ∧ mode t = .frameReady ∧ t.frameLength.toNat = payload.length + 2 ∧
      bufByte t 0 = bufByte s 0 ∧ Holds t 1 payload := by
  have hC : 2 < Config.C := by decide
  obtain ⟨u, hu, hframe, hbefore, hholds⟩ := hs.absorbs_stuff payload (by omega)
  obtain ⟨t, ht, hresult, hinv, hready, hlength, hkept⟩ := hframe.end_completes (by omega) (by omega)
  refine ⟨t, ?_, hinv, hready, by omega, ?_, fun k hk => ?_⟩
  · rw [List.map_append, ← hresult]
    exact runOps_append hu (runOps_single ht)
  · rw [hkept 0 (by omega), hbefore 0 Nat.one_pos]
  · rw [hkept (1 + k) (by omega), hholds k hk]

/-- XTEL delivers the first byte and the payload of a complete frame (R91). -/
theorem exec_xtel_delivers_payload {t : State} {payload : List Byte} {cap : Operand} (hinv : Inv t)
    (hm : mode t = .frameReady) (hlength : t.frameLength.toNat = payload.length + 2) (hholds : Holds t 1 payload)
    (hcap : payload.length + 1 ≤ cap.toNat) :
    ∃ u, exec (.xtel cap) t = .next u ∧ u.result = .count (payload.length + 1) ∧
      Memory.read u.out 0 = some (bufByte t 0) ∧
      ∀ k, k < payload.length → Memory.read u.out (k + 1) = payload[k]? := by
  have hcount : t.frameLength.toNat - 1 = payload.length + 1 := by omega
  obtain ⟨-, hroom, -⟩ := xtelCopiesTelegram cap t
  rw [hcount] at hroom
  obtain ⟨u, hu, hresult, ⟨hbytes, -⟩, -⟩ := hroom ((mode_frameReady_iff t).1 hm) hinv.writePosition_le hcap
  simp only [Nat.zero_add] at hbytes
  refine ⟨u, hu, hresult, hbytes 0 (Nat.succ_pos _), fun k hk => ?_⟩
  rw [hbytes (k + 1) (Nat.succ_lt_succ hk), Nat.add_comm k 1, hholds k hk]

/-- Settles O36: START opens the frame, each payload byte is stored as itself, END completes it above the floor, and
XTEL copies what was stored. -/
theorem framedPayloadRoundTrip : Obligations.FramedPayloadRoundTrip := by
  intro payload s hinv hm hlow hhigh
  obtain ⟨u, hstart, hframe, hstored⟩ := absorbs_start hinv hm
  obtain ⟨t, hrest, hinvt, hready, hlength, hfirst, hholds⟩ := hframe.stuff_end_completes hlow hhigh
  refine ⟨_, t, runOps_append hstart hrest, ?_, hready, hlength, fun cap hcap => ?_⟩
  · simp [frameOps, List.replicate_succ]
  · rw [← show bufByte t 0 = (0x37 : Byte) from hfirst.trans hstored.1]
    exact exec_xtel_delivers_payload hinvt hready hlength hholds hcap

/-- Settles O38: the overflow leaves its byte as the first of a frame, which the payload and END complete. -/
theorem overflowTailDeliveredAsFrame : Obligations.OverflowTailDeliveredAsFrame := by
  intro b payload s hinv hm hfull he hb hlow hhigh
  obtain ⟨hr, -, -⟩ := regs_of_accumulating hinv hm
  have hrow := feedGives_full (i := .feed b) rfl hr hfull hb
  rw [he] at hrow
  obtain ⟨u, hu, hresult, hframe, hstored⟩ := hrow.inFrame Nat.one_pos hinv
  obtain ⟨t, hrest, hinvt, hready, hlength, hfirst, hholds⟩ := hframe.stuff_end_completes hlow hhigh
  have hrun := runOps_cons hu hrest
  rw [hresult] at hrun
  refine ⟨_, t, hrun, rfl, by rw [← List.cons_append, List.getLast?_concat], hready, fun cap hcap => ?_⟩
  rw [← show bufByte t 0 = b from hfirst.trans hstored.1]
  exact exec_xtel_delivers_payload hinvt hready hlength hholds hcap

/-- At a full buffer introducers change nothing, and any other byte overflows (R70, R76). -/
theorem runOps_overflows_of_full {bytes : List Byte} {s t : State} {rs : List Result} (hinv : Inv s)
    (hm : mode s = .accumulating) (hfull : s.writePosition.toNat = Config.C) (hbytes : ∃ b ∈ bytes, b ≠ Config.ESC)
    (h : runOps (bytes.map Instr.feed) s = .next (rs, t)) : rs.any isOverflow = true := by
  induction bytes generalizing s rs with
  | nil => simp at hbytes
  | cons b bs ih =>
    obtain ⟨u, rs', hu, hrest, rfl⟩ := runOps_cons_eq_next h
    by_cases hb : b = Config.ESC
    · obtain ⟨hmu, -, hwu⟩ := feed_of_accumulating_introducer rfl hu hinv hm hb
      have hlater : ∃ c ∈ bs, c ≠ Config.ESC := by simpa [hb] using hbytes
      rw [List.any_cons, ih (inv_of_exec hinv hu) hmu (hwu ▸ hfull) hlater hrest, Bool.or_true]
    · obtain ⟨-, -, -, hresult⟩ := feed_of_accumulating_overflows rfl hu hm hb hfull
      rw [List.any_cons, hresult, isOverflow, Bool.true_or]

/-- Settles O37: a short payload leaves the block below the floor, where END is data; a long one fills the buffer
with END still to come, and END is no ESC. -/
theorem framedPayloadBounds : Obligations.FramedPayloadBounds := by
  intro payload s hinv hm
  obtain ⟨u, hstart, hframe, -⟩ := absorbs_start hinv hm
  refine ⟨fun hshort => ?_, fun hlong => ?_⟩
  · have hC : Config.MINLEN < Config.C := by decide
    obtain ⟨v, hv, hframev, -⟩ := hframe.absorbs_stuff payload (by omega)
    obtain ⟨t, ht, hframet, hstored⟩ := hframev.absorbs_byte (x := Config.END) (by decide) (by omega) (by omega)
    have hrun : Absorbs ([Config.START] ++ (stuff payload ++ [Config.END])) s t := hstart.append (hv.append ht)
    refine ⟨_, t, hrun, by simp [frameOps], hframet.mode_eq, by rw [hframet.stored]; omega, ?_⟩
    rw [Nat.add_comm]
    exact hstored.1
  · have hlength : 1 + (payload.take (Config.C - 1)).length = Config.C := by
      have hC : 0 < Config.C := by decide
      rw [List.length_take]
      omega
    obtain ⟨v, hv, hframev, -⟩ := hframe.absorbs_stuff (payload.take (Config.C - 1)) (Nat.le_of_eq hlength)
    rw [hlength] at hframev
    obtain ⟨rs, t, ht, -⟩ :=
      runOps_completes ((stuff (payload.drop (Config.C - 1)) ++ [Config.END]).map Instr.feed) hframev.inv
    have hoverflow := runOps_overflows_of_full hframev.inv hframev.mode_eq hframev.stored
      ⟨Config.END, by simp, by decide⟩ ht
    have hsplit : frameOps payload = [Config.START].map Instr.feed ++
        ((stuff (payload.take (Config.C - 1))).map Instr.feed ++
          (stuff (payload.drop (Config.C - 1)) ++ [Config.END]).map Instr.feed) := by
      rw [← List.map_append, ← List.map_append, ← List.append_assoc (stuff _), ← stuff_append, List.take_append_drop]
      rfl
    rw [hsplit]
    exact ⟨_, t, runOps_append hstart (runOps_append hv ht), by simp [hoverflow]⟩

/-! ### How far completions lie apart (R114) -/

/-- Only a FEED returns `complete`. -/
theorem isComplete_eq_false_of_not_feed {i : Instr} {s t : State} (hf : fedByte i = none) (h : exec i s = .next t) :
    isComplete t.result = false := by
  cases i <;> simp only [fedByte, reduceCtorEq] at hf
  case clear => cases exec_clear_eq_next h; rfl
  case xtel cap =>
    obtain ⟨-, rfl⟩ | ⟨-, -, rfl⟩ | ⟨-, -, bs, -, -, rfl⟩ := exec_xtel_cases h <;> rfl
  case xaddr a b c => obtain ⟨n, found, -, ⟨-, -, rfl⟩ | ⟨-, bs, -, -, rfl⟩⟩ := exec_xaddr_cases h <;> rfl
  case xcsum p => obtain ⟨-, rfl⟩ | ⟨-, rfl⟩ := exec_xcsum_cases h <;> rfl
  case reservedOp op => cases exec_reservedOp_eq_next h; rfl

/-- How many bytes the next FEED finds stored, after its release. -/
def pendingBytes (s : State) : Nat := (release s).writePosition.toNat

theorem pendingBytes_of_ready {s : State} (h : ready s = true) : pendingBytes s = 0 := by
  rw [pendingBytes, release_of_ready h]
  rfl

theorem pendingBytes_le (s : State) : pendingBytes s ≤ s.writePosition.toNat := by
  unfold pendingBytes release
  split
  · exact Nat.zero_le _
  · exact Nat.le_refl _

theorem appendIndex_le (s : State) : appendIndex s ≤ s.writePosition.toNat := by
  rw [appendIndex_eq]
  split
  · exact Nat.zero_le _
  · exact Nat.le_refl _

/-- A FEED stores one byte at most. -/
theorem writePosition_le_of_exec_feed {i : Instr} {b : Byte} {s t : State} (hf : fedByte i = some b)
    (h : exec i s = .next t) : t.writePosition.toNat ≤ pendingBytes s + 1 := by
  have hstore (v : Byte) (hlt : appendIndex (setEscape false (release s)) < Config.C) :
      (pushByte v (makeRoom (setEscape false (release s)))).writePosition.toNat ≤ pendingBytes s + 1 := by
    rw [appendIndex_setEscape] at hlt
    obtain ⟨-, hw, -⟩ := storedNext_pushByte v hlt
    rw [hw]
    exact Nat.succ_le_succ (appendIndex_le _)
  obtain ⟨-, -, rfl⟩ | ⟨-, -, rfl⟩ | ⟨-, -, -, hlt, rfl⟩ | ⟨-, hlt, -, rfl⟩ | ⟨-, hlt, -, rfl⟩ := exec_feed_cases hf h
  · exact Nat.le_succ _
  · exact Nat.le_succ _
  · exact hstore (escapedLiteral b) hlt
  · exact hstore b hlt
  · exact hstore b hlt

/-- Every other operation stores none. -/
theorem pendingBytes_le_of_not_feed {i : Instr} {s t : State} (hf : fedByte i = none) (h : exec i s = .next t) :
    pendingBytes t ≤ pendingBytes s := by
  cases hext : isExtraction i with
  | true =>
    obtain ⟨hregs, -⟩ := exec_extraction_sameBlock hext h
    rw [pendingBytes, (sameRegs_release hregs).1]
    exact Nat.le_refl _
  | false =>
    cases i <;> simp only [fedByte, isExtraction, reduceCtorEq] at hf hext
    case clear => cases exec_clear_eq_next h; exact Nat.zero_le _
    case reservedOp op =>
      cases exec_reservedOp_eq_next h
      rw [pendingBytes, release_setResult]
      exact Nat.le_refl _

/-- A result that says `complete` is a FEED's, above the floor, and leaves `Ready` (R75). -/
theorem exec_complete {i : Instr} {s t : State} (h : exec i s = .next t) (hc : isComplete t.result = true) :
    ready t = true ∧ isFeed i = true ∧ Config.MINLEN ≤ pendingBytes s := by
  cases hfed : fedByte i with
  | none => simp [isComplete_eq_false_of_not_feed hfed h] at hc
  | some b =>
    obtain ⟨complete, overflow, hres⟩ := exec_feed_result hfed h
    rw [hres] at hc
    obtain rfl : complete = true := hc
    obtain ⟨-, hfloor, -, hready⟩ := feedCompletesFrame.2 i b s t overflow hfed h hres
    have := writePosition_le_of_exec_feed hfed h
    exact ⟨hready, by rw [isFeed, hfed]; rfl, by omega⟩

/-- The bytes a completion needs above the floor are there already, or are fed. -/
theorem runOps_complete_feeds {ops : List Instr} {s t : State} {rs : List Result}
    (h : runOps ops s = .next (rs, t)) (hc : rs.any isComplete = true) :
    Config.MINLEN + 1 ≤ pendingBytes s + ops.countP isFeed := by
  induction ops generalizing s rs with
  | nil => cases h; simp at hc
  | cons i is ih =>
    obtain ⟨u, rs', hu, hrest, rfl⟩ := runOps_cons_eq_next h
    rw [List.any_cons, Bool.or_eq_true] at hc
    rw [List.countP_cons]
    obtain hnow | hlater := hc
    · obtain ⟨-, hfeed, hfloor⟩ := exec_complete hu hnow
      rw [hfeed, if_pos rfl]
      omega
    · have hneeds := ih hrest hlater
      cases hfed : fedByte i with
      | some b =>
        have := writePosition_le_of_exec_feed hfed hu
        have := pendingBytes_le u
        rw [isFeed, hfed, Option.isSome_some, if_pos rfl]
        omega
      | none =>
        have := pendingBytes_le_of_not_feed hfed hu
        omega

/-- A completion leaves no byte pending, so the next one needs a whole frame of FEEDs. -/
theorem runOps_complete_feeds_of_ready {ops : List Instr} {s t : State} {rs : List Result} (hr : ready s = true)
    (h : runOps ops s = .next (rs, t)) (hc : rs.any isComplete = true) :
    Config.MINLEN + 1 ≤ ops.countP isFeed := by
  have hneeds := runOps_complete_feeds h hc
  rwa [pendingBytes_of_ready hr, Nat.zero_add] at hneeds

theorem runOps_complete_once {ops : List Instr} {s t : State} {rs : List Result}
    (hlength : ops.length ≤ Config.MINLEN + 1) (h : runOps ops s = .next (rs, t)) : rs.countP isComplete ≤ 1 := by
  induction ops generalizing s rs with
  | nil => cases h; exact Nat.zero_le 1
  | cons i is ih =>
    rw [List.length_cons] at hlength
    obtain ⟨u, rs', hu, hrest, rfl⟩ := runOps_cons_eq_next h
    rw [List.countP_cons]
    cases hc : isComplete u.result with
    | false => exact ih (by omega) hrest
    | true =>
      obtain ⟨hready, -, -⟩ := exec_complete hu hc
      have hnone : ¬ rs'.any isComplete = true := fun hlater => by
        have := runOps_complete_feeds_of_ready hready hrest hlater
        have := is.countP_le_length (p := isFeed)
        omega
      rw [List.countP_eq_zero.2 (by simpa using hnone)]
      exact Nat.le_refl 1

/-- Settles O39: from FrameReady a completion takes `MINLEN + 1` FEEDs, and one operation of the window was the
first completion. -/
theorem completionsAreSpaced : Obligations.CompletionsAreSpaced :=
  ⟨fun _ _ _ _ _ hr => runOps_complete_feeds_of_ready hr, fun _ _ _ _ _ => runOps_complete_once⟩

end Machine

end Sys2Proof
